-- ==== Sys2Proof/Word.lean ====
section
/-! DEFINITION. The word types of the machine: the widths of 00_scope.md rules R5, R7 and R8. -/

namespace Sys2Proof

/-- One memory cell, one general register, one timer: 8 bits (R20, R26, R27, R60). -/
abbrev Byte := BitVec 8

/-- One instruction word, PC, I, one stack entry: 16 bits (R23, R25, R30, R90). -/
abbrev Word := BitVec 16

/-- A 4-bit field: a register index `x` or `y`, a row count `n`, a key index (R92, R40). -/
abbrev Nibble := BitVec 4

/-- The 12-bit immediate `nnn` (R92, R93). -/
abbrev Addr12 := BitVec 12

end Sys2Proof
end

