-- ==== Sys2Proof/Syntax.lean ====
section
/-! DEFINITION. The instructions: one constructor per row of spec/opcode_table.json, in its order
(30_encoding.md rule R95). Operand fields are typed by their widths (R92), so an out-of-range
operand cannot be written down. The bits a word carries but the hardware ignores (R103) are kept, so
that every legal word has exactly one instruction and back (log 25). -/

namespace Sys2Proof

/-- The 34 instructions of R95. -/
inductive Instr where
  /-- `0..E` RET; the argument is the ignored bits 11:4 (canonical word 0x00EE, R97). -/
  | ret (ignored : BitVec 8)
  /-- `0...` CLS; the argument is bits 11:0, whose low nibble is not 0xE (canonical word 0x00E0, R97). -/
  | cls (ignored : BitVec 12)
  /-- `1nnn` JP nnn. -/
  | jp (nnn : Addr12)
  /-- `2nnn` CALL nnn. -/
  | call (nnn : Addr12)
  /-- `3xkk` SE Vx, kk. -/
  | seImm (x : Nibble) (kk : Byte)
  /-- `4xkk` SNE Vx, kk. -/
  | sneImm (x : Nibble) (kk : Byte)
  /-- `5xy0` SE Vx, Vy. -/
  | seReg (x y : Nibble)
  /-- `6xkk` LD Vx, kk. -/
  | ldImm (x : Nibble) (kk : Byte)
  /-- `7xkk` ADD Vx, kk. -/
  | addImm (x : Nibble) (kk : Byte)
  /-- `8xy0` LD Vx, Vy. -/
  | ldReg (x y : Nibble)
  /-- `8xy1` OR Vx, Vy. -/
  | orReg (x y : Nibble)
  /-- `8xy2` AND Vx, Vy. -/
  | andReg (x y : Nibble)
  /-- `8xy3` XOR Vx, Vy. -/
  | xorReg (x y : Nibble)
  /-- `8xy4` ADD Vx, Vy. -/
  | addReg (x y : Nibble)
  /-- `8xy5` SUB Vx, Vy. -/
  | sub (x y : Nibble)
  /-- `8xy6` SHR Vx; `y` is encoded and ignored (R103). -/
  | shr (x y : Nibble)
  /-- `8xy7` SUBN Vx, Vy. -/
  | subn (x y : Nibble)
  /-- `8xyE` SHL Vx; `y` is encoded and ignored (R103). -/
  | shl (x y : Nibble)
  /-- `9xy0` SNE Vx, Vy. -/
  | sneReg (x y : Nibble)
  /-- `Annn` LD I, nnn. -/
  | ldI (nnn : Addr12)
  /-- `Bnnn` JP V0, nnn. -/
  | jpV0 (nnn : Addr12)
  /-- `Cxkk` RND Vx, kk. -/
  | rnd (x : Nibble) (kk : Byte)
  /-- `Dxyn` DRW Vx, Vy, n. -/
  | drw (x y n : Nibble)
  /-- `Ex9E` SKP Vx. -/
  | skp (x : Nibble)
  /-- `ExA1` SKNP Vx. -/
  | sknp (x : Nibble)
  /-- `Fx07` LD Vx, DT. -/
  | ldVxDt (x : Nibble)
  /-- `Fx0A` LD Vx, K; `x` is encoded and not used (R232). -/
  | ldVxK (x : Nibble)
  /-- `Fx15` LD DT, Vx. -/
  | ldDtVx (x : Nibble)
  /-- `Fx18` LD ST, Vx. -/
  | ldStVx (x : Nibble)
  /-- `Fx1E` ADD I, Vx. -/
  | addI (x : Nibble)
  /-- `Fx29` LD F, Vx. -/
  | ldF (x : Nibble)
  /-- `Fx33` LD B, Vx. -/
  | ldB (x : Nibble)
  /-- `Fx55` LD [I], Vx. -/
  | storeRegs (x : Nibble)
  /-- `Fx65` LD Vx, [I]. -/
  | loadRegs (x : Nibble)
  deriving DecidableEq, Repr

/-- One row of the opcode map (R95): a word `op` is the instruction iff `op &&& mask = value`, rows
tried in order. -/
structure OpcodeRow where
  mnemonic : String
  mask : Word
  value : Word
  deriving DecidableEq, Repr

end Sys2Proof
end

