-- ==== Sys2Proof/Decode.lean ====
section
/-! DEFINITION. The decoder, two-level as 30_encoding.md rule R94 has it (top nibble, then the
family's sub-opcode), total on any bytes and rejecting by name; after it the encoder, written from
the formats of R91 and the map of R95, and the map itself as mask and match rows. -/

namespace Sys2Proof

/-- Why bytes stand for no instruction. -/
inductive DecodeError where
  /-- Fewer than the two bytes every instruction has (R90); the rejection is the model's own (log 30). -/
  | truncated
  /-- The word matches no row of the opcode map (R102). -/
  | unrecognized (word : Word)
  deriving DecidableEq, Repr

/-! ### Fields (R92) -/

/-- `op[15:12]`, which selects the family. -/
def opFamily (op : Word) : Nibble := op.extractLsb' 12 4
/-- `op[11:8]`. -/
def opX (op : Word) : Nibble := op.extractLsb' 8 4
/-- `op[7:4]`. -/
def opY (op : Word) : Nibble := op.extractLsb' 4 4
/-- `op[3:0]`. -/
def opN (op : Word) : Nibble := op.extractLsb' 0 4
/-- `op[7:0]`, the immediate `kk` and the sub-opcode `ss`. -/
def opKK (op : Word) : Byte := op.extractLsb' 0 8
/-- `op[11:0]`. -/
def opNNN (op : Word) : Addr12 := op.extractLsb' 0 12
/-- `op[11:4]`, ignored by RET. -/
def opMid (op : Word) : BitVec 8 := op.extractLsb' 4 8

/-! ### Families with a sub-opcode -/

/-- Family 0 (R96): low nibble 0xE is RET, every other word is CLS; no word is illegal. -/
def decodeFamily0 (op : Word) : Except DecodeError Instr :=
  if opN op = 0xE#4 then .ok (.ret (opMid op)) else .ok (.cls (opNNN op))

/-- Family 5 (R101). -/
def decodeFamily5 (op : Word) : Except DecodeError Instr :=
  if opN op = 0#4 then .ok (.seReg (opX op) (opY op)) else .error (.unrecognized op)

/-- Family 8 (R98). -/
def decodeFamily8 (op : Word) : Except DecodeError Instr :=
  match (opN op).toNat with
  | 0x0 => .ok (.ldReg (opX op) (opY op))
  | 0x1 => .ok (.orReg (opX op) (opY op))
  | 0x2 => .ok (.andReg (opX op) (opY op))
  | 0x3 => .ok (.xorReg (opX op) (opY op))
  | 0x4 => .ok (.addReg (opX op) (opY op))
  | 0x5 => .ok (.sub (opX op) (opY op))
  | 0x6 => .ok (.shr (opX op) (opY op))
  | 0x7 => .ok (.subn (opX op) (opY op))
  | 0xE => .ok (.shl (opX op) (opY op))
  | _ => .error (.unrecognized op)

/-- Family 9 (R101). -/
def decodeFamily9 (op : Word) : Except DecodeError Instr :=
  if opN op = 0#4 then .ok (.sneReg (opX op) (opY op)) else .error (.unrecognized op)

/-- Family E (R100): the whole low byte is compared. -/
def decodeFamilyE (op : Word) : Except DecodeError Instr :=
  if opKK op = 0x9E#8 then .ok (.skp (opX op))
  else if opKK op = 0xA1#8 then .ok (.sknp (opX op))
  else .error (.unrecognized op)

/-- Family F (R99): the whole low byte is compared. -/
def decodeFamilyF (op : Word) : Except DecodeError Instr :=
  if opKK op = 0x07#8 then .ok (.ldVxDt (opX op))
  else if opKK op = 0x0A#8 then .ok (.ldVxK (opX op))
  else if opKK op = 0x15#8 then .ok (.ldDtVx (opX op))
  else if opKK op = 0x18#8 then .ok (.ldStVx (opX op))
  else if opKK op = 0x1E#8 then .ok (.addI (opX op))
  else if opKK op = 0x29#8 then .ok (.ldF (opX op))
  else if opKK op = 0x33#8 then .ok (.ldB (opX op))
  else if opKK op = 0x55#8 then .ok (.storeRegs (opX op))
  else if opKK op = 0x65#8 then .ok (.loadRegs (opX op))
  else .error (.unrecognized op)

/-- The decoder of one instruction word (R94, R95). -/
def decode (op : Word) : Except DecodeError Instr :=
  match (opFamily op).toNat with
  | 0x0 => decodeFamily0 op
  | 0x1 => .ok (.jp (opNNN op))
  | 0x2 => .ok (.call (opNNN op))
  | 0x3 => .ok (.seImm (opX op) (opKK op))
  | 0x4 => .ok (.sneImm (opX op) (opKK op))
  | 0x5 => decodeFamily5 op
  | 0x6 => .ok (.ldImm (opX op) (opKK op))
  | 0x7 => .ok (.addImm (opX op) (opKK op))
  | 0x8 => decodeFamily8 op
  | 0x9 => decodeFamily9 op
  | 0xA => .ok (.ldI (opNNN op))
  | 0xB => .ok (.jpV0 (opNNN op))
  | 0xC => .ok (.rnd (opX op) (opKK op))
  | 0xD => .ok (.drw (opX op) (opY op) (opN op))
  | 0xE => decodeFamilyE op
  | _ => decodeFamilyF op

/-! ### Bytes (R64, R66, R90) -/

/-- The word of two bytes: the byte at the lower address is the high byte (R66). -/
def wordOfBytes (hi lo : Byte) : Word := hi ++ lo

/-- The bytes of a word in memory order, high byte first (R66). -/
def bytesOfWord (w : Word) : Byte × Byte := (w.extractLsb' 8 8, w.extractLsb' 0 8)

/-- The decoder on a list of bytes: the instruction they begin with, and the bytes after it. -/
def decodeBytes : List Byte → Except DecodeError (Instr × List Byte)
  | hi :: lo :: rest =>
    match decode (wordOfBytes hi lo) with
    | .ok i => .ok (i, rest)
    | .error e => .error e
  | [_] => .error .truncated
  | [] => .error .truncated

/-! ### The encoder (R91, R95) -/

/-- Format `NNN`. -/
def formatNNN (family : Nibble) (nnn : Addr12) : Word := family ++ nnn
/-- Format `XKK`, and `XSS` with the sub-opcode byte in the place of `kk`. -/
def formatXKK (family x : Nibble) (kk : Byte) : Word := family ++ (x ++ kk)
/-- Format `XYN`. -/
def formatXYN (family x y n : Nibble) : Word := family ++ (x ++ (y ++ n))
/-- Format `Z` of RET: bits 11:4 as given, low nibble 0xE. -/
def formatRet (ignored : BitVec 8) : Word := 0x0#4 ++ (ignored ++ 0xE#4)

/-- The word of an instruction. -/
def encode : Instr → Word
  | .ret ignored => formatRet ignored
  | .cls ignored => formatNNN 0x0 ignored
  | .jp nnn => formatNNN 0x1 nnn
  | .call nnn => formatNNN 0x2 nnn
  | .seImm x kk => formatXKK 0x3 x kk
  | .sneImm x kk => formatXKK 0x4 x kk
  | .seReg x y => formatXYN 0x5 x y 0x0
  | .ldImm x kk => formatXKK 0x6 x kk
  | .addImm x kk => formatXKK 0x7 x kk
  | .ldReg x y => formatXYN 0x8 x y 0x0
  | .orReg x y => formatXYN 0x8 x y 0x1
  | .andReg x y => formatXYN 0x8 x y 0x2
  | .xorReg x y => formatXYN 0x8 x y 0x3
  | .addReg x y => formatXYN 0x8 x y 0x4
  | .sub x y => formatXYN 0x8 x y 0x5
  | .shr x y => formatXYN 0x8 x y 0x6
  | .subn x y => formatXYN 0x8 x y 0x7
  | .shl x y => formatXYN 0x8 x y 0xE
  | .sneReg x y => formatXYN 0x9 x y 0x0
  | .ldI nnn => formatNNN 0xA nnn
  | .jpV0 nnn => formatNNN 0xB nnn
  | .rnd x kk => formatXKK 0xC x kk
  | .drw x y n => formatXYN 0xD x y n
  | .skp x => formatXKK 0xE x 0x9E
  | .sknp x => formatXKK 0xE x 0xA1
  | .ldVxDt x => formatXKK 0xF x 0x07
  | .ldVxK x => formatXKK 0xF x 0x0A
  | .ldDtVx x => formatXKK 0xF x 0x15
  | .ldStVx x => formatXKK 0xF x 0x18
  | .addI x => formatXKK 0xF x 0x1E
  | .ldF x => formatXKK 0xF x 0x29
  | .ldB x => formatXKK 0xF x 0x33
  | .storeRegs x => formatXKK 0xF x 0x55
  | .loadRegs x => formatXKK 0xF x 0x65

/-- The bytes of an instruction in memory order. -/
def encodeBytes (i : Instr) : List Byte :=
  [(bytesOfWord (encode i)).1, (bytesOfWord (encode i)).2]

/-! ### The opcode map as mask and match rows (R95, R107) -/

/-- The row of an instruction. -/
def Instr.row : Instr → OpcodeRow
  | .ret _ => ⟨"RET", 0xF00F, 0x000E⟩
  | .cls _ => ⟨"CLS", 0xF000, 0x0000⟩
  | .jp _ => ⟨"JP_nnn", 0xF000, 0x1000⟩
  | .call _ => ⟨"CALL_nnn", 0xF000, 0x2000⟩
  | .seImm _ _ => ⟨"SE_Vx__kk", 0xF000, 0x3000⟩
  | .sneImm _ _ => ⟨"SNE_Vx__kk", 0xF000, 0x4000⟩
  | .seReg _ _ => ⟨"SE_Vx__Vy", 0xF00F, 0x5000⟩
  | .ldImm _ _ => ⟨"LD_Vx__kk", 0xF000, 0x6000⟩
  | .addImm _ _ => ⟨"ADD_Vx__kk", 0xF000, 0x7000⟩
  | .ldReg _ _ => ⟨"LD_Vx__Vy", 0xF00F, 0x8000⟩
  | .orReg _ _ => ⟨"OR_Vx__Vy", 0xF00F, 0x8001⟩
  | .andReg _ _ => ⟨"AND_Vx__Vy", 0xF00F, 0x8002⟩
  | .xorReg _ _ => ⟨"XOR_Vx__Vy", 0xF00F, 0x8003⟩
  | .addReg _ _ => ⟨"ADD_Vx__Vy", 0xF00F, 0x8004⟩
  | .sub _ _ => ⟨"SUB_Vx__Vy", 0xF00F, 0x8005⟩
  | .shr _ _ => ⟨"SHR_Vx", 0xF00F, 0x8006⟩
  | .subn _ _ => ⟨"SUBN_Vx__Vy", 0xF00F, 0x8007⟩
  | .shl _ _ => ⟨"SHL_Vx", 0xF00F, 0x800E⟩
  | .sneReg _ _ => ⟨"SNE_Vx__Vy", 0xF00F, 0x9000⟩
  | .ldI _ => ⟨"LD_I__nnn", 0xF000, 0xA000⟩
  | .jpV0 _ => ⟨"JP_V0__nnn", 0xF000, 0xB000⟩
  | .rnd _ _ => ⟨"RND_Vx__kk", 0xF000, 0xC000⟩
  | .drw _ _ _ => ⟨"DRW_Vx__Vy__n", 0xF000, 0xD000⟩
  | .skp _ => ⟨"SKP_Vx", 0xF0FF, 0xE09E⟩
  | .sknp _ => ⟨"SKNP_Vx", 0xF0FF, 0xE0A1⟩
  | .ldVxDt _ => ⟨"LD_Vx__DT", 0xF0FF, 0xF007⟩
  | .ldVxK _ => ⟨"LD_Vx__K", 0xF0FF, 0xF00A⟩
  | .ldDtVx _ => ⟨"LD_DT__Vx", 0xF0FF, 0xF015⟩
  | .ldStVx _ => ⟨"LD_ST__Vx", 0xF0FF, 0xF018⟩
  | .addI _ => ⟨"ADD_I__Vx", 0xF0FF, 0xF01E⟩
  | .ldF _ => ⟨"LD_F__Vx", 0xF0FF, 0xF029⟩
  | .ldB _ => ⟨"LD_B__Vx", 0xF0FF, 0xF033⟩
  | .storeRegs _ => ⟨"LD__I___Vx", 0xF0FF, 0xF055⟩
  | .loadRegs _ => ⟨"LD_Vx___I", 0xF0FF, 0xF065⟩

/-- Does the word match the row? -/
def rowMatches (op : Word) (r : OpcodeRow) : Bool := op &&& r.mask == r.value

/-- The map in the order of R95 and spec/opcode_table.json. -/
def opcodeMap : List OpcodeRow :=
  ([.ret 0, .cls 0, .jp 0, .call 0, .seImm 0 0, .sneImm 0 0, .seReg 0 0, .ldImm 0 0, .addImm 0 0,
    .ldReg 0 0, .orReg 0 0, .andReg 0 0, .xorReg 0 0, .addReg 0 0, .sub 0 0, .shr 0 0, .subn 0 0,
    .shl 0 0, .sneReg 0 0, .ldI 0, .jpV0 0, .rnd 0 0, .drw 0 0 0, .skp 0, .sknp 0, .ldVxDt 0,
    .ldVxK 0, .ldDtVx 0, .ldStVx 0, .addI 0, .ldF 0, .ldB 0, .storeRegs 0, .loadRegs 0] :
    List Instr).map Instr.row

/-- "A decoder written from the table alone tests rows in order and takes the first" (R107). -/
def firstRow (op : Word) : Option OpcodeRow := opcodeMap.find? (rowMatches op)

/-- The instruction the decoder reads from an instruction whose bits are `w`, numbered as
spec/opcode_table.json numbers them: one 16-bit word, laid out high byte first. -/
def decodeTableWord (nbits w : Nat) : Option Instr :=
  let word : Word := BitVec.ofNat 16 (w % 2 ^ nbits)
  match decodeBytes [(bytesOfWord word).1, (bytesOfWord word).2] with
  | .ok r => some r.1
  | .error _ => none

end Sys2Proof
end

