-- ==== Sys2Proof/Config.lean ====
section
/-! DEFINITION. The implementation parameters of 00_scope.md rule R5 and the one free value of the
machine, the random byte of 42_alu.md rule R173. (The parameter FONT stands in Machine/Font.lean.) -/

namespace Sys2Proof

/-- `MEM_SIZE` of R5: addresses 0 to 4095 exist. -/
abbrev Config.memSize : Nat := 4096

/-- `STACK_DEPTH` of R5 (R30). -/
abbrev Config.stackDepth : Nat := 24

/-- `PROG_BASE` of R5: the load address of a program and the reset value of PC. -/
abbrev Config.progBase : Nat := 0x200

/-- The longest image `load` has a meaning for: 4096 - 512 bytes (R295). -/
abbrev Config.maxImage : Nat := 3584

/-- `DISP_W` of R5. -/
abbrev Config.dispW : Nat := 64

/-- `DISP_H` of R5. -/
abbrev Config.dispH : Nat := 32

/-- `FONT_BYTES` of R5. -/
abbrev Config.fontBytes : Nat := 80

/-- FREE VALUE (log 2). The byte the random source answers at its `k`-th draw when no injected
sequence is left: any of the 256 values, under no law (R173, D23). It has no body, so no proof can
learn anything about it. -/
opaque Config.randomByte : Nat → Byte

end Sys2Proof
end

