-- ==== Sys2Proof/Machine/Font.lean ====
section
/-! DEFINITION. The model parameter FONT of 00_scope.md rule R5, at the default the spec gives it in
70_reset_and_hazards.md rule R293 (log 5). -/

namespace Sys2Proof.Machine

/-- Glyphs 0 to 7 (addresses 0x00 to 0x27). -/
def fontLow : List Byte :=
  [0xF0, 0x90, 0x90, 0x90, 0xF0,  0x20, 0x60, 0x20, 0x20, 0x70,
   0xF0, 0x10, 0xF0, 0x80, 0xF0,  0xF0, 0x10, 0xF0, 0x10, 0xF0,
   0x90, 0x90, 0xF0, 0x10, 0x10,  0xF0, 0x80, 0xF0, 0x10, 0xF0,
   0xF0, 0x80, 0xF0, 0x90, 0xF0,  0xF0, 0x10, 0x20, 0x40, 0x40]

/-- Glyphs 8 to F (addresses 0x28 to 0x4F). -/
def fontHigh : List Byte :=
  [0xF0, 0x90, 0xF0, 0x90, 0xF0,  0xF0, 0x90, 0xF0, 0x10, 0xF0,
   0xF0, 0x90, 0xF0, 0x90, 0x90,  0xE0, 0x90, 0xE0, 0x90, 0xE0,
   0xF0, 0x80, 0x80, 0x80, 0xF0,  0xE0, 0x90, 0x90, 0x90, 0xE0,
   0xF0, 0x80, 0xF0, 0x80, 0xF0,  0xF0, 0x80, 0xF0, 0x80, 0x80]

/-- PRESUMED (log 5): `FONT[0..79]` of R293, the conventional CHIP-8 font, glyph of digit `d` at
`5 * d`. Unsafe: a claim that reads font bytes as data rests on it. -/
def fontTable : List Byte := fontLow ++ fontHigh

end Sys2Proof.Machine
end

