-- ==== Sys2Proof/Machine/State.lean ====
section
/-! DEFINITION. The state of the machine (10_state.md rules R20 to R47), the events of its agents
(R40), the notifications it emits (R42), the reasons a step can stop, and the state after reset
(R44, 70_reset_and_hazards.md rule R290). -/

namespace Sys2Proof.Machine

/-- The five fault causes with the info each records (60_exceptions.md rule R250). -/
inductive FaultCause where
  /-- Code 1: a byte access at an address above 4095; the info is the unbounded address. -/
  | addressOutOfRange (address : Nat)
  /-- Code 2: the fetched word matches no row of the opcode map; the info is the word. -/
  | unrecognizedOpcode (word : Word)
  /-- Code 3: `CALL` with 24 entries on the stack. -/
  | stackOverflow
  /-- Code 4: `RET` with an empty stack. -/
  | stackUnderflow
  /-- Code 5: `SKP` or `SKNP` with `V[x] > 15`; the info is `V[x]`. -/
  | keyIndexOutOfRange (value : Byte)
  deriving DecidableEq, Repr

/-- The two notifications the core emits toward the host (R42, R268). -/
inductive Notification where
  | startSound
  | stopSound
  deriving DecidableEq, Repr

/-- The atomic events of the agents (R6, R40). Key indices are 4-bit payloads (D28). -/
inductive Event where
  /-- The interpreter's step (R120). -/
  | tick
  /-- The timer agent's step (R262). -/
  | advanceTimers
  /-- The host presses key `k` (R264). -/
  | keyDown (k : Nibble)
  /-- The host releases key `k` (R265). -/
  | keyUp (k : Nibble)
  /-- The host copies a program image to 0x200 (R295). -/
  | load (bytes : List Byte)
  /-- The host resets the machine (R290). -/
  | reset
  deriving DecidableEq, Repr

/-- Memory as the list of the cells that differ from the reset contents: addresses strictly rising,
no entry equal to what an unlisted address reads as (`unlistedByte` of Machine/Ops.lean). -/
abbrev Memory := List Host.Cell

/-- The frame buffer by rows: `pix[y][x]` is the spec's `pix[x][y]` (R33). -/
abbrev Display := Vector (Vector Bool 64) 32

/-- Every pixel off (R213). -/
abbrev blankDisplay : Display := Vector.replicate 32 (Vector.replicate 64 false)

/-- All the state the spec gives the machine, and three fields of the model's own for its environment
(`supply`, `draws`, `schedule`). -/
structure State where
  /-- `V[0..15]`, VF is `v[15]` (R20, R21). -/
  v : Vector Byte 16
  /-- PC (R23). -/
  pc : Word
  /-- The index register I (R25). -/
  i : Word
  /-- The delay timer DT (R26). -/
  dt : Byte
  /-- The sound timer ST (R27). -/
  st : Byte
  /-- The keyboard latch (R28). -/
  key : Vector Bool 16
  /-- `waiting_for_key` (R29). -/
  waiting : Bool
  /-- DrawRequired (R36). -/
  drawReq : Bool
  /-- The fault latch (R37). -/
  fault : Option FaultCause
  /-- The live entries of the call stack, the head (most recently pushed) first; SP is the length (R30). -/
  stack : List Word
  /-- The frame buffer (R33). -/
  pix : Display
  /-- `mem[0..4095]` (R38). -/
  mem : Memory
  /-- The output event list, in the order emitted (R42). -/
  outputs : List Notification
  /-- MODEL (log 2): the bytes an injected random source will answer next (R173). -/
  supply : List Byte
  /-- MODEL (log 2): how many random bytes have been drawn so far. -/
  draws : Nat
  /-- MODEL (log 1): the events still to come, oldest first; when none is left the interpreter ticks. -/
  schedule : List Event
  deriving DecidableEq, Repr

/-- The state after reset, and equally at power-on (R44, R291): the values of R44's table. -/
def State.reset : State where
  v := Vector.replicate 16 0
  pc := 0x200
  i := 0
  dt := 0
  st := 0
  key := Vector.replicate 16 false
  waiting := false
  drawReq := false
  fault := none
  stack := []
  pix := blankDisplay
  mem := []
  outputs := []
  supply := []
  draws := 0
  schedule := []

/-- Why a step stops. R256: "A model should treat a state with `fault != none` as a fault outcome of
the step". -/
inductive Fault where
  /-- Raised by `settle` (Machine/Tick.lean), that is by `step`, whenever the state after the event
  has its fault latch set: the machine is halted (R256, R257). It carries that whole state, the latch
  and every partial effect of R258 in it, so nothing the spec gives is lost. Safe (log 3): a run that
  faulted is never a successful run. -/
  | halted (cause : FaultCause) (after : State)
  deriving DecidableEq, Repr

/-- What the model gives no meaning to. -/
inductive Refusal where
  /-- Raised by `exec` for an instruction the model has no meaning for yet. Safe. -/
  | notModelled (mnemonic : String)
  /-- Raised by the host event `load` for an image longer than 3584 bytes, to which the spec gives no
  meaning (R295, R275, U11). Safe (log 19). -/
  | overlongImage (length : Nat)
  deriving DecidableEq, Repr

end Sys2Proof.Machine
end

