-- ==== Sys2Proof/Machine/Ops.lean ====
section
/-! DEFINITION. The named operations over registers, memory, stack, latch and environment that every
meaning is written with: field updates, memory access (20_memory.md rules R62 to R65), push and pop
(10_state.md rules R30, R31), raising a fault (60_exceptions.md rule R256), the random draw
(42_alu.md rule R173). -/

namespace Sys2Proof.Machine

/-- The outcome of one handler or event. -/
abbrev Outcome := Host.Outcome State Fault Refusal

/-! ### Field updates -/

/-- Read `V[x]` (R8, R20). -/
def State.readV (s : State) (x : Nibble) : Byte := s.v[x.toNat]'x.isLt
/-- `V[x] <- b` (R8, R20). -/
def State.setV (s : State) (x : Nibble) (b : Byte) : State := { s with v := s.v.set x.toNat b x.isLt }
/-- `PC <- w`. -/
def State.setPc (s : State) (w : Word) : State := { s with pc := w }
/-- `I <- w`. -/
def State.setI (s : State) (w : Word) : State := { s with i := w }
/-- `DT <- b`. -/
def State.setDt (s : State) (b : Byte) : State := { s with dt := b }
/-- `ST <- b`. -/
def State.setSt (s : State) (b : Byte) : State := { s with st := b }
/-- Read `key[k]` (R28). -/
def State.readKey (s : State) (k : Nibble) : Bool := s.key[k.toNat]'k.isLt
/-- `key[k] <- on`. -/
def State.setKey (s : State) (k : Nibble) (on : Bool) : State :=
  { s with key := s.key.set k.toNat on k.isLt }
/-- `waiting <- on`. -/
def State.setWaiting (s : State) (on : Bool) : State := { s with waiting := on }
/-- `draw_req <- on`. -/
def State.setDrawReq (s : State) (on : Bool) : State := { s with drawReq := on }
/-- `fault <- f`. -/
def State.setFault (s : State) (f : Option FaultCause) : State := { s with fault := f }
/-- Replace the live stack entries. -/
def State.setStack (s : State) (l : List Word) : State := { s with stack := l }
/-- Replace the frame buffer. -/
def State.setPix (s : State) (d : Display) : State := { s with pix := d }
/-- Replace the memory contents. -/
def State.setMem (s : State) (m : Memory) : State := { s with mem := m }
/-- `emit n`: append one notification to the output event list (R8, R42). -/
def State.emit (s : State) (n : Notification) : State := { s with outputs := s.outputs ++ [n] }
/-- Replace what is left of the injected random sequence, and count one draw (log 2). -/
def State.setDrawn (s : State) (rest : List Byte) : State :=
  { s with supply := rest, draws := s.draws + 1 }
/-- Replace the events still to come (log 1). -/
def State.setSchedule (s : State) (l : List Event) : State := { s with schedule := l }

/-! ### Memory (R60 to R65) -/

/-- What an address that the memory list does not name reads as: the reset contents, FONT at 0 to 79
and 0 above (R44, R293). -/
def unlistedByte (a : Nat) : Byte := fontTable.getD a 0

/-- The byte at `a`. -/
def Memory.read : Memory → Nat → Byte
  | [], a => unlistedByte a
  | (k, b) :: rest, a => if a = k then b else Memory.read rest a

/-- Put an entry before a list unless it says what an unlisted address reads as. -/
def Memory.consCell (a : Nat) (b : Byte) (rest : Memory) : Memory :=
  if b = unlistedByte a then rest else (a, b) :: rest

/-- The memory with byte `b` at `a` and every other byte as before, in canonical form. -/
def Memory.write : Memory → Nat → Byte → Memory
  | [], a, b => Memory.consCell a b []
  | (k, c) :: rest, a, b =>
    if a < k then Memory.consCell a b ((k, c) :: rest)
    else if a = k then Memory.consCell a b rest
    else (k, c) :: Memory.write rest a b

/-- The memory with the bytes of a list from `a` upward, one write at a time in increasing order (R75,
R295). -/
def Memory.writeList : Memory → Nat → List Byte → Memory
  | m, _, [] => m
  | m, a, b :: rest => Memory.writeList (Memory.write m a b) (a + 1) rest

/-- The canonical form: addresses strictly rising and in 0 to 4095, no entry equal to what an unlisted
address reads as. -/
abbrev Memory.wf (m : Memory) : Prop :=
  m.Pairwise (fun c d => c.1 < d.1) ∧ ∀ c ∈ m, c.1 < Config.memSize ∧ c.2 ≠ unlistedByte c.1

/-- `mem[a]`, without the range check: for observation and for statements (R43). -/
def State.byteAt (s : State) (a : Nat) : Byte := Memory.read s.mem a

/-- `MemRead(a, 1)` (R62): the range check is on the unbounded address. -/
def memRead (a : Nat) (s : State) : Except FaultCause Byte :=
  if a < Config.memSize then .ok (s.byteAt a) else .error (.addressOutOfRange a)

/-- `MemWrite(a, 1, b)` (R63): never clamped, never wrapped. -/
def memWrite (a : Nat) (b : Byte) (s : State) : Except FaultCause State :=
  if a < Config.memSize then .ok (s.setMem (Memory.write s.mem a b))
  else .error (.addressOutOfRange a)

/-- `MemRead(a, 2)` (R64): two byte reads in increasing order, joined big-endian. -/
def memReadWord (a : Nat) (s : State) : Except FaultCause Word :=
  match memRead a s with
  | .error c => .error c
  | .ok hi =>
    match memRead (a + 1) s with
    | .error c => .error c
    | .ok lo => .ok (wordOfBytes hi lo)

/-! ### Taking a fault (R256) -/

/-- `raise cause`: latch the fault and stop here. Nothing else is saved and control goes nowhere; PC,
and every effect before this statement, stay as they stand (R256, R258). There is no return from a
fault but `reset` (R267). -/
def raise (c : FaultCause) (s : State) : Outcome := .next (s.setFault (some c))

/-- The numeric code of a cause (R250). -/
def faultCode : FaultCause → Nat
  | .addressOutOfRange _ => 1
  | .unrecognizedOpcode _ => 2
  | .stackOverflow => 3
  | .stackUnderflow => 4
  | .keyIndexOutOfRange _ => 5

/-! ### The call stack (R30, R31) -/

/-- `push(w)`: StackOverflow at depth 24, else `w` becomes the head. -/
def push (w : Word) (s : State) : Except FaultCause State :=
  if s.stack.length < Config.stackDepth then .ok (s.setStack (w :: s.stack))
  else .error .stackOverflow

/-- `pop()`: StackUnderflow at depth 0, else the head and the state without it. -/
def pop (s : State) : Except FaultCause (Word × State) :=
  match s.stack with
  | [] => .error .stackUnderflow
  | w :: rest => .ok (w, s.setStack rest)

/-! ### PC (R121, R147) -/

/-- `PC <- (PC + 2) mod 2^16`: the advance of the fetch (R121), and the skip primitive (R147). -/
def advancePc (s : State) : State := s.setPc (s.pc + 2)

/-- Skip the next instruction if the condition holds, else do nothing (R147). -/
def skipIf (cond : Bool) (s : State) : State := if cond then advancePc s else s

/-! ### Multi-byte transfers (R75): one byte at a time, in increasing offset -/

/-- Store the bytes from `a` upward; the first failing address raises, the bytes before it stay stored. -/
def storeBytes : Nat → List Byte → State → Outcome
  | _, [], s => .next s
  | a, b :: rest, s =>
    match memWrite a b s with
    | .error c => raise c s
    | .ok t => storeBytes (a + 1) rest t

/-- Load the registers listed from `a` upward; the first failing address raises, the registers before
it stay loaded. -/
def loadInto : Nat → List Nibble → State → Outcome
  | _, [], s => .next s
  | a, r :: rest, s =>
    match memRead a s with
    | .error c => raise c s
    | .ok b => loadInto (a + 1) rest (s.setV r b)

/-! ### The random source (R173) -/

/-- The byte `rand()` answers: the next byte of the injected sequence, or, when there is none left, the
free value of this draw (log 2). -/
def randomByte (s : State) : Byte :=
  match s.supply with
  | b :: _ => b
  | [] => Config.randomByte s.draws

/-- The state after one call of `rand()`: exactly one byte has been drawn. -/
def afterRandom (s : State) : State := s.setDrawn s.supply.tail

end Sys2Proof.Machine
end

