-- ==== Sys2Proof/Machine/Flags.lean ====
section
/-! DEFINITION. What is written to VF, and when (10_state.md rule R21, 42_alu.md rules R164 to R171). -/

namespace Sys2Proof.Machine

/-- The register VF. -/
abbrev regVF : Nibble := 15

/-- A flag as a register value: exactly 0 or 1 (R21, D11). -/
def flagByte (b : Bool) : Byte := if b then 1 else 0

/-- ADD: carry out of bit 7 (R167). -/
def carryFlag (a b : Byte) : Bool := decide (255 < a.toNat + b.toNat)

/-- SUB and SUBN: strictly greater, so equal operands give 0 (R168, R170, C5). -/
def greaterFlag (a b : Byte) : Bool := decide (b.toNat < a.toNat)

/-- SHR: bit 0 before the shift (R169). -/
def lowBitFlag (a : Byte) : Bool := a.getLsbD 0

/-- SHL: bit 7 before the shift (R171). -/
def highBitFlag (a : Byte) : Bool := a.getLsbD 7

/-- Write the result to `V[x]`, then the flag to VF, last (R164): with `x = 15` the flag stays. -/
def writeResultFlag (x : Nibble) (result : Byte) (flag : Bool) (s : State) : State :=
  (s.setV x result).setV regVF (flagByte flag)

end Sys2Proof.Machine
end

