-- ==== Sys2Proof/Machine/Operands.lean ====
section
/-! DEFINITION. The operand forms: immediates (30_encoding.md rule R93), the one data addressing mode
(43_index_memory.md rule R194, 20_memory.md rule R65), register groups (R195, R196), decimal digits
(R193), glyph addresses (R192) and the start position of a sprite (44_display.md rule R214). -/

namespace Sys2Proof.Machine

/-- `zext_16(nnn)` (R93). -/
def immAddr (nnn : Addr12) : Word := nnn.setWidth 16

/-- `zext_16(b)` (R191, R148). -/
def zext16 (b : Byte) : Word := b.setWidth 16

/-- The target of `JP V0, nnn` (R148): not masked. -/
def indexedTarget (s : State) (nnn : Addr12) : Word := zext16 (s.readV 0) + immAddr nnn

/-- The address `I + k`, unbounded: not reduced modulo 2^16, not masked (R65, R194). -/
def effAddr (s : State) (k : Nat) : Nat := s.i.toNat + k

/-- The sixteen register indices in order. -/
def allRegs : List Nibble := [0, 1, 2, 3, 4, 5, 6, 7, 8, 9, 10, 11, 12, 13, 14, 15]

/-- The registers V0 to Vx inclusive, in order (R195, R196). -/
def regGroup (x : Nibble) : List Nibble := allRegs.take (x.toNat + 1)

/-- The three decimal digits of a byte, hundreds, tens, ones (R193). -/
def bcdDigits (v : Byte) : List Byte :=
  [BitVec.ofNat 8 (v.toNat / 100), BitVec.ofNat 8 (v.toNat / 10 % 10), BitVec.ofNat 8 (v.toNat % 10)]

/-- The address of the glyph of a digit, `5 * v` (R192). -/
def glyphAddr (v : Byte) : Word := BitVec.ofNat 16 (5 * v.toNat)

/-- The start column of a sprite, `V[x] mod 64` (R214). -/
def startColumn (v : Byte) : Nat := v.toNat % Config.dispW

/-- The start row of a sprite, `V[y] mod 32` (R214). -/
def startRow (v : Byte) : Nat := v.toNat % Config.dispH

/-- The key whose index is a register value of at most 15 (R236). -/
def keyOf (v : Byte) : Nibble := v.setWidth 4

end Sys2Proof.Machine
end

