-- ==== Sys2Proof/Machine/Alu.lean ====
section
/-! DEFINITION. Register loads, the 8-bit ALU and the random instruction (42_alu.md rules R160 to R174).
`BitVec 8` addition and subtraction are the arithmetic modulo 256 of R174. -/

namespace Sys2Proof.Machine

/-- `LD Vx, kk` (R160). -/
def execLdImm (x : Nibble) (kk : Byte) (s : State) : Outcome := .next (s.setV x kk)

/-- `ADD Vx, kk` (R161): no flag. -/
def execAddImm (x : Nibble) (kk : Byte) (s : State) : Outcome := .next (s.setV x (s.readV x + kk))

/-- `LD Vx, Vy` (R162). -/
def execLdReg (x y : Nibble) (s : State) : Outcome := .next (s.setV x (s.readV y))

/-- `OR Vx, Vy` (R163): VF unchanged. -/
def execOrReg (x y : Nibble) (s : State) : Outcome := .next (s.setV x (s.readV x ||| s.readV y))

/-- `AND Vx, Vy` (R165): VF unchanged. -/
def execAndReg (x y : Nibble) (s : State) : Outcome := .next (s.setV x (s.readV x &&& s.readV y))

/-- `XOR Vx, Vy` (R166): VF unchanged. -/
def execXorReg (x y : Nibble) (s : State) : Outcome := .next (s.setV x (s.readV x ^^^ s.readV y))

/-- `ADD Vx, Vy` (R167). -/
def execAddReg (x y : Nibble) (s : State) : Outcome :=
  .next (writeResultFlag x (s.readV x + s.readV y) (carryFlag (s.readV x) (s.readV y)) s)

/-- `SUB Vx, Vy` (R168): VF = `Vx > Vy`, strictly. -/
def execSub (x y : Nibble) (s : State) : Outcome :=
  .next (writeResultFlag x (s.readV x - s.readV y) (greaterFlag (s.readV x) (s.readV y)) s)

/-- `SHR Vx` (R169): in place, the `y` field is ignored (D9). -/
def execShr (x : Nibble) (s : State) : Outcome :=
  .next (writeResultFlag x (s.readV x >>> 1) (lowBitFlag (s.readV x)) s)

/-- `SUBN Vx, Vy` (R170): VF = `Vy > Vx`, strictly. -/
def execSubn (x y : Nibble) (s : State) : Outcome :=
  .next (writeResultFlag x (s.readV y - s.readV x) (greaterFlag (s.readV y) (s.readV x)) s)

/-- `SHL Vx` (R171): in place, the `y` field is ignored (D9). -/
def execShl (x : Nibble) (s : State) : Outcome :=
  .next (writeResultFlag x (s.readV x <<< 1) (highBitFlag (s.readV x)) s)

/-- `RND Vx, kk` (R172): one byte is drawn, also when `kk = 0`. -/
def execRnd (x : Nibble) (kk : Byte) (s : State) : Outcome :=
  .next ((afterRandom s).setV x (randomByte s &&& kk))

end Sys2Proof.Machine
end

