-- ==== Sys2Proof/Machine/Blitter.lean ====
section
/-! DEFINITION. The display controller: the pixel primitive, the row blitter and the row loop of DRW
(44_display.md rules R210 to R214, R216). -/

namespace Sys2Proof.Machine

/-- The pixel at column `px`, row `py`; off the grid there is none, and this says off. For observation
and for statements; the host's port is `getPixel` of Machine/Observe.lean (R41, R210). -/
def pixelAt (d : Display) (px py : Nat) : Bool :=
  if h : px < 64 ∧ py < 32 then (d[py]'h.2)[px]'h.1 else false

/-- `set_pixel(px, py, on) -> erased` (R211): off the grid a no-op returning false. -/
def setPixel (px py : Nat) (on : Bool) (d : Display) : Display × Bool :=
  if h : px < 64 ∧ py < 32 then
    let old := (d[py]'h.2)[px]'h.1
    (d.set py ((d[py]'h.2).set px (old ^^ on) h.1) h.2, old && on)
  else (d, false)

/-- Set a run of pixels of one row from column `px` upward; the second component collects erasures. -/
def drawCols (px py : Nat) : List Bool → Display → Bool → Display × Bool
  | [], d, collided => (d, collided)
  | on :: rest, d, collided =>
    let r := setPixel px py on d
    drawCols (px + 1) py rest r.1 (collided || r.2)

/-- The eight bits of a sprite byte, the most significant first: the lowest column (R210, R212). -/
def spriteBits (b : Byte) : List Bool :=
  [b.getLsbD 7, b.getLsbD 6, b.getLsbD 5, b.getLsbD 4, b.getLsbD 3, b.getLsbD 2, b.getLsbD 1, b.getLsbD 0]

/-- `draw_sprite(x0, y0, b) -> collided` (R212). -/
def drawSprite (x0 y0 : Nat) (b : Byte) (d : Display) : Display × Bool :=
  drawCols x0 y0 (spriteBits b) d false

/-- The rows of DRW still to draw (R216): `a` is the address of the next sprite byte, which is read even
when its row is off the screen. After the last row VF takes the collision bit and DrawRequired is set;
a read that raises leaves both unwritten (R258). -/
def drawRows (x0 : Nat) : (rows y0 a : Nat) → Bool → State → Outcome
  | 0, _, _, collided, s => .next ((s.setV regVF (flagByte collided)).setDrawReq true)
  | rows + 1, y0, a, collided, s =>
    match memRead a s with
    | .error c => raise c s
    | .ok b =>
      let r := drawSprite x0 y0 b s.pix
      drawRows x0 rows (y0 + 1) (a + 1) (collided || r.2) (s.setPix r.1)

end Sys2Proof.Machine
end

