-- ==== Sys2Proof/Machine/DisplayInstr.lean ====
section
/-! DEFINITION. The display instructions (44_display.md rules R215, R216). -/

namespace Sys2Proof.Machine

/-- `CLS` (R215, R213). -/
def execCls (s : State) : Outcome := .next ((s.setPix blankDisplay).setDrawReq true)

/-- `DRW Vx, Vy, n` (R216): the start position wraps (R214) and is read before VF is written. -/
def execDrw (x y n : Nibble) (s : State) : Outcome :=
  drawRows (startColumn (s.readV x)) n.toNat (startRow (s.readV y)) (effAddr s 0) false s

end Sys2Proof.Machine
end

