-- ==== Sys2Proof/Machine/Flow.lean ====
section
/-! DEFINITION. Control transfer (41_flow.md rules R140 to R149). Every meaning is the handler alone: it
runs after the common fetch, so PC is already the address of the following instruction (R9). -/

namespace Sys2Proof.Machine

/-- `RET` (R140): `PC <- pop()`. -/
def execRet (s : State) : Outcome :=
  match pop s with
  | .error c => raise c s
  | .ok r => .next (r.2.setPc r.1)

/-- `JP nnn` (R141). -/
def execJp (nnn : Addr12) (s : State) : Outcome := .next (s.setPc (immAddr nnn))

/-- `CALL nnn` (R142): push the advanced PC, then jump. -/
def execCall (nnn : Addr12) (s : State) : Outcome :=
  match push s.pc s with
  | .error c => raise c s
  | .ok t => .next (t.setPc (immAddr nnn))

/-- `SE Vx, kk` (R143). -/
def execSeImm (x : Nibble) (kk : Byte) (s : State) : Outcome := .next (skipIf (s.readV x == kk) s)

/-- `SNE Vx, kk` (R144). -/
def execSneImm (x : Nibble) (kk : Byte) (s : State) : Outcome := .next (skipIf (s.readV x != kk) s)

/-- `SE Vx, Vy` (R145). -/
def execSeReg (x y : Nibble) (s : State) : Outcome := .next (skipIf (s.readV x == s.readV y) s)

/-- `SNE Vx, Vy` (R146). -/
def execSneReg (x y : Nibble) (s : State) : Outcome := .next (skipIf (s.readV x != s.readV y) s)

/-- `JP V0, nnn` (R148): the sum is not masked. -/
def execJpV0 (nnn : Addr12) (s : State) : Outcome := .next (s.setPc (indexedTarget s nnn))

end Sys2Proof.Machine
end

