-- ==== Sys2Proof/Machine/IndexMemory.lean ====
section
/-! DEFINITION. The index register and the memory instructions (43_index_memory.md rules R190 to R196). -/

namespace Sys2Proof.Machine

/-- `LD I, nnn` (R190). -/
def execLdI (nnn : Addr12) (s : State) : Outcome := .next (s.setI (immAddr nnn))

/-- `ADD I, Vx` (R191): modulo 2^16, no flag. -/
def execAddI (x : Nibble) (s : State) : Outcome := .next (s.setI (s.i + zext16 (s.readV x)))

/-- `LD F, Vx` (R192): above 15 a silent no-op. -/
def execLdF (x : Nibble) (s : State) : Outcome :=
  .next (if (s.readV x).toNat ≤ 15 then s.setI (glyphAddr (s.readV x)) else s)

/-- `LD B, Vx` (R193). -/
def execLdB (x : Nibble) (s : State) : Outcome := storeBytes (effAddr s 0) (bcdDigits (s.readV x)) s

/-- `LD [I], Vx` (R195). -/
def execStoreRegs (x : Nibble) (s : State) : Outcome :=
  storeBytes (effAddr s 0) ((regGroup x).map s.readV) s

/-- `LD Vx, [I]` (R196). -/
def execLoadRegs (x : Nibble) (s : State) : Outcome := loadInto (effAddr s 0) (regGroup x) s

end Sys2Proof.Machine
end

