-- ==== Sys2Proof/Machine/KeysTimers.lean ====
section
/-! DEFINITION. The keyboard and timer instructions (45_keys_timers.md rules R230 to R236). -/

namespace Sys2Proof.Machine

/-- `SKP Vx` (R230, R236): the index is checked before the latch is read. -/
def execSkp (x : Nibble) (s : State) : Outcome :=
  if 15 < (s.readV x).toNat then raise (.keyIndexOutOfRange (s.readV x)) s
  else .next (skipIf (s.readKey (keyOf (s.readV x))) s)

/-- `SKNP Vx` (R231, R236). -/
def execSknp (x : Nibble) (s : State) : Outcome :=
  if 15 < (s.readV x).toNat then raise (.keyIndexOutOfRange (s.readV x)) s
  else .next (skipIf (!s.readKey (keyOf (s.readV x))) s)

/-- `LD Vx, DT` (R233). -/
def execLdVxDt (x : Nibble) (s : State) : Outcome := .next (s.setV x s.dt)

/-- `LD Vx, K` (R232): `x` is not used and no register is written (D12). -/
def execLdVxK (s : State) : Outcome := .next (s.setWaiting true)

/-- `LD DT, Vx` (R234). -/
def execLdDtVx (x : Nibble) (s : State) : Outcome := .next (s.setDt (s.readV x))

/-- `LD ST, Vx` (R235, R268): a positive value also emits `start_sound`. -/
def execLdStVx (x : Nibble) (s : State) : Outcome :=
  .next (if 0 < (s.readV x).toNat then (s.setSt (s.readV x)).emit .startSound else s.setSt (s.readV x))

end Sys2Proof.Machine
end

