-- ==== Sys2Proof/Machine/Tick.lean ====
section
/-! DEFINITION. The agents' events: the tick (40_tick_fetch_decode.md rules R120 to R124), the timer step
(60_exceptions.md rule R262), the key events (R264, R265), load and reset (70_reset_and_hazards.md rules
R295, R290), the halted state (R257), and what `step` is made of. -/

namespace Sys2Proof.Machine

/-! ### The interpreter: tick -/

/-- `execute(op)` (R123, R124): run the handler of the instruction the word stands for, or raise
UnrecognizedOpcode. -/
def execute (op : Word) (s : State) : Outcome :=
  match decode op with
  | .error _ => raise (.unrecognizedOpcode op) s
  | .ok i => exec i s

/-- Fetch, PC advance and execution (R121 to R124): a fetch fault leaves PC where it is. -/
def fetchExecute (s : State) : Outcome :=
  match memReadWord s.pc.toNat s with
  | .error c => raise c s
  | .ok op => execute op (advancePc s)

/-- `tick` of a machine that is not halted: clear DrawRequired, then nothing more while waiting for a
key, else one instruction (R120 steps 2 to 4). -/
def tickLive (s : State) : Outcome :=
  if s.waiting then .next (s.setDrawReq false) else fetchExecute (s.setDrawReq false)

/-! ### The timer and the host -/

/-- Decrement the sound timer if it is positive, and emit `stop_sound` when that takes it to 0 (R262, R268). -/
def stepSound (s : State) : State :=
  if 0 < s.st.toNat then
    if s.st - 1 = 0 then (s.setSt (s.st - 1)).emit .stopSound else s.setSt (s.st - 1)
  else s

/-- Decrement the delay timer if it is positive (R262). -/
def stepDelay (s : State) : State := if 0 < s.dt.toNat then s.setDt (s.dt - 1) else s

/-- `advance_timers` of a machine that is not halted (R262). -/
def advanceTimersLive (s : State) : State := stepSound (stepDelay s)

/-- `key_down(k)` and `key_up(k)` of a machine that is not halted: set or clear the latch bit, and end
any wait (R264, R265). -/
def keyEventLive (k : Nibble) (down : Bool) (s : State) : State := (s.setKey k down).setWaiting false

/-- `load(bytes)` of a machine that is not halted (R295): an overlong image has no meaning (D26). -/
def loadLive (bytes : List Byte) (s : State) : Outcome :=
  if bytes.length ≤ Config.maxImage then .next (s.setMem (Memory.writeList s.mem Config.progBase bytes))
  else .refused (.overlongImage bytes.length)

/-- `reset` (R290): every element of the machine at its value of R44, from any state whatever. It emits
nothing and does not touch the random source (R292), so the notifications already emitted, the
injected bytes and the events still to come are kept (log 26, log 27). -/
def resetEvent (s : State) : State :=
  { State.reset with
    outputs := s.outputs, supply := s.supply, draws := s.draws, schedule := s.schedule }

/-! ### One event -/

/-- An event of a machine that is not halted. -/
def runLive (e : Event) (s : State) : Outcome :=
  match e with
  | .tick => tickLive s
  | .advanceTimers => .next (advanceTimersLive s)
  | .keyDown k => .next (keyEventLive k true s)
  | .keyUp k => .next (keyEventLive k false s)
  | .load bytes => loadLive bytes s
  | .reset => .next (resetEvent s)

/-- An event of a halted machine (R257): no effect, but for `reset`. -/
def runHalted (e : Event) (s : State) : Outcome :=
  match e with
  | .tick => .next s
  | .advanceTimers => .next s
  | .keyDown _ => .next s
  | .keyUp _ => .next s
  | .load _ => .next s
  | .reset => .next (resetEvent s)

/-- One atomic event, whatever the state. -/
def runEvent (e : Event) (s : State) : Outcome :=
  match s.fault with
  | none => runLive e s
  | some _ => runHalted e s

/-- The next event of the schedule; when none is left the interpreter ticks (log 1). -/
def runNext (s : State) : Outcome :=
  match s.schedule with
  | [] => runEvent .tick s
  | e :: rest => runEvent e (s.setSchedule rest)

/-- R256: a state whose fault latch is set is a fault outcome of the step, never a next state. The
outcome carries that state (log 3). -/
def settle : Outcome → Outcome
  | .next t =>
    match t.fault with
    | none => .next t
    | some c => .fault (.halted c t)
  | .fault r => .fault r
  | .refused r => .refused r

/-! ### Placing an instruction where the next tick fetches it -/

/-- The address of the next fetch, or the reset PC where nothing can be fetched at PC. -/
def fetchablePc (s : State) : Word := if s.pc.toNat + 1 < Config.memSize then s.pc else 0x200

/-- The state with the word `op` stored where the next step fetches it: PC fetchable, no wait, no
fault, no other event before the tick (log 23). -/
def placeWord (s : State) (op : Word) : State :=
  { s with
    pc := fetchablePc s
    waiting := false
    fault := none
    schedule := []
    mem := Memory.write (Memory.write s.mem (fetchablePc s).toNat (bytesOfWord op).1)
      ((fetchablePc s).toNat + 1) (bytesOfWord op).2 }

end Sys2Proof.Machine
end

