-- ==== Sys2Proof/Machine/Step.lean ====
section
/-! DEFINITION. One step of the machine, and the fixed entry by which the host places an instruction. -/

namespace Sys2Proof.Machine

/-- One step: the next event, atomically (R6, R40), with a state whose latch is set as a fault
outcome (R256). -/
def step (s : State) : Host.Outcome State Fault Refusal := settle (runNext s)

/-- `s` with the instruction whose bits are `w` stored where `step` fetches next (log 23). -/
def State.withFetchWord (s : State) (nbits w : Nat) : State :=
  placeWord s (BitVec.ofNat 16 (w % 2 ^ nbits))

end Sys2Proof.Machine
end

