-- ==== Sys2Proof/Machine/Observe.lean ====
section
/-! DEFINITION. The read-only observation ports (10_state.md rule R41) and the debug observations (R32,
R43). Reading has no side effect and gives the host no way to change the machine. -/

namespace Sys2Proof.Machine

/-- `get_pixel(x, y)`: 6-bit column, 5-bit row, so no request is off the grid (R41, D28). -/
def getPixel (s : State) (x : BitVec 6) (y : BitVec 5) : Bool := pixelAt s.pix x.toNat y.toNat

/-- The outputs of R41 but for the pixels. -/
structure Ports where
  pc : Word
  i : Word
  dt : Byte
  st : Byte
  drawRequired : Bool
  fault : Option FaultCause
  deriving DecidableEq, Repr

/-- What the host reads at the ports between events (R41). -/
def observePorts (s : State) : Ports :=
  { pc := s.pc, i := s.i, dt := s.dt, st := s.st, drawRequired := s.drawReq, fault := s.fault }

/-- `peek()` (R32): the head of the stack, no head at depth 0 (U6). -/
def peek (s : State) : Option Word := s.stack.head?

/-- SP, the number of live entries (R30). -/
def stackDepth (s : State) : Nat := s.stack.length

end Sys2Proof.Machine
end

