-- ==== Sys2Proof/Safety.lean ====
section
/-! DEFINITION. The terms in which claims are made: the invariant of every run, the outcomes of a tick
(R127), the instruction a step executes, the read and write sets of 10_state.md rule R47, the fault
conditions of 60_exceptions.md rule R250, the reset table of 10_state.md rule R44. -/

namespace Sys2Proof.Machine

/-! ### Legal states -/

/-- What every run from reset keeps: memory in canonical form, at most 24 stack entries (R30), each a
return address a CALL can push (at most 4096), and PC at most 0x10FE (10_state.md rule R24). -/
structure State.Inv (s : State) : Prop where
  memWf : Memory.wf s.mem
  depth : s.stack.length ≤ Config.stackDepth
  returns : ∀ w ∈ s.stack, w.toNat ≤ 4096
  pcRange : s.pc.toNat ≤ 0x10FE

/-- The values of R44's table. -/
structure State.IsReset (s : State) : Prop where
  regs : ∀ x, s.readV x = 0
  pc : s.pc.toNat = 0x200
  index : s.i.toNat = 0
  delay : s.dt.toNat = 0
  sound : s.st.toNat = 0
  stack : s.stack = []
  keys : ∀ k, s.readKey k = false
  waiting : s.waiting = false
  drawReq : s.drawReq = false
  pixels : ∀ x y, pixelAt s.pix x y = false
  font : ∀ a, a < Config.fontBytes → s.byteAt a = fontTable.getD a 0
  zeros : ∀ a, Config.fontBytes ≤ a → s.byteAt a = 0
  fault : s.fault = none

/-! ### Steps -/

/-- The event the next step takes (log 1). -/
def State.nextEvent (s : State) : Event := s.schedule.head?.getD .tick

/-- The word at PC (R64, R121). -/
def State.wordAtPc (s : State) : Word :=
  wordOfBytes (s.byteAt s.pc.toNat) (s.byteAt (s.pc.toNat + 1))

/-- The instruction the next step executes, if it executes one: the event is a tick, the machine neither
halted nor waiting, both bytes at PC exist and they decode (R120, R123). -/
def State.executes (s : State) : Option Instr :=
  if s.nextEvent = .tick ∧ s.fault = none ∧ s.waiting = false ∧ s.pc.toNat + 1 < Config.memSize then
    match decode s.wordAtPc with
    | .ok i => some i
    | .error _ => none
  else none

/-- The state a handler starts from: the event taken off the schedule, DrawRequired cleared, PC advanced
(R9, R120, R121). -/
def State.afterFetch (s : State) : State :=
  { s with schedule := s.schedule.tail, drawReq := false, pc := BitVec.ofNat 16 (s.pc.toNat + 2) }

/-- The three outcomes of a tick (40_tick_fetch_decode.md rule R127). -/
inductive TickOutcome where
  /-- Steps 2 and 4 of R120 ran and no statement raised. -/
  | executed
  /-- The machine was waiting for a key or halted. -/
  | blocked
  /-- A statement raised. -/
  | faulted
  deriving DecidableEq, Repr

/-- The outcome of a tick taken at `s` (R127). -/
def tickOutcome (s : State) : TickOutcome :=
  if s.fault.isSome || s.waiting then .blocked
  else
    match runEvent .tick s with
    | .next t => if t.fault.isSome then .faulted else .executed
    | .fault _ => .faulted
    | .refused _ => .faulted

/-! ### Read and write sets (R47) -/

/-- The state elements of R47, and the model's own fields. -/
inductive Elem where
  | v | pc | i | dt | st | key | waiting | drawReq | fault | stack | pix | mem | outputs | random | schedule
  deriving DecidableEq, Repr

/-- An element has the same value in both states; memory and registers through their reads. -/
def Elem.same (s t : State) : Elem → Prop
  | .v => ∀ x, t.readV x = s.readV x
  | .pc => t.pc = s.pc
  | .i => t.i = s.i
  | .dt => t.dt = s.dt
  | .st => t.st = s.st
  | .key => ∀ k, t.readKey k = s.readKey k
  | .waiting => t.waiting = s.waiting
  | .drawReq => t.drawReq = s.drawReq
  | .fault => t.fault = s.fault
  | .stack => t.stack = s.stack
  | .pix => ∀ x y, pixelAt t.pix x y = pixelAt s.pix x y
  | .mem => ∀ a, t.byteAt a = s.byteAt a
  | .outputs => t.outputs = s.outputs
  | .random => t.supply = s.supply ∧ t.draws = s.draws
  | .schedule => t.schedule = s.schedule

/-- The "writes" column of R47 for the handler of each instruction; `fault` for those that can raise. -/
def writesOf : Instr → List Elem
  | .ret _ => [.pc, .stack, .fault]
  | .cls _ => [.pix, .drawReq]
  | .jp _ => [.pc]
  | .call _ => [.stack, .pc, .fault]
  | .seImm _ _ => [.pc]
  | .sneImm _ _ => [.pc]
  | .seReg _ _ => [.pc]
  | .ldImm _ _ => [.v]
  | .addImm _ _ => [.v]
  | .ldReg _ _ => [.v]
  | .orReg _ _ => [.v]
  | .andReg _ _ => [.v]
  | .xorReg _ _ => [.v]
  | .addReg _ _ => [.v]
  | .sub _ _ => [.v]
  | .shr _ _ => [.v]
  | .subn _ _ => [.v]
  | .shl _ _ => [.v]
  | .sneReg _ _ => [.pc]
  | .ldI _ => [.i]
  | .jpV0 _ => [.pc]
  | .rnd _ _ => [.v, .random]
  | .drw _ _ _ => [.pix, .v, .drawReq, .fault]
  | .skp _ => [.pc, .fault]
  | .sknp _ => [.pc, .fault]
  | .ldVxDt _ => [.v]
  | .ldVxK _ => [.waiting]
  | .ldDtVx _ => [.dt]
  | .ldStVx _ => [.st, .outputs]
  | .addI _ => [.i]
  | .ldF _ => [.i]
  | .ldB _ => [.mem, .fault]
  | .storeRegs _ => [.mem, .fault]
  | .loadRegs _ => [.v, .fault]

/-- The registers an instruction writes: the destination it names, and VF for the six instructions of
R21. -/
def regWritesOf : Instr → List Nibble
  | .ret _ => []
  | .cls _ => []
  | .jp _ => []
  | .call _ => []
  | .seImm _ _ => []
  | .sneImm _ _ => []
  | .seReg _ _ => []
  | .ldImm x _ => [x]
  | .addImm x _ => [x]
  | .ldReg x _ => [x]
  | .orReg x _ => [x]
  | .andReg x _ => [x]
  | .xorReg x _ => [x]
  | .addReg x _ => [x, regVF]
  | .sub x _ => [x, regVF]
  | .shr x _ => [x, regVF]
  | .subn x _ => [x, regVF]
  | .shl x _ => [x, regVF]
  | .sneReg _ _ => []
  | .ldI _ => []
  | .jpV0 _ => []
  | .rnd x _ => [x]
  | .drw _ _ _ => [regVF]
  | .skp _ => []
  | .sknp _ => []
  | .ldVxDt x => [x]
  | .ldVxK _ => []
  | .ldDtVx _ => []
  | .ldStVx _ => []
  | .addI _ => []
  | .ldF _ => []
  | .ldB _ => []
  | .storeRegs _ => []
  | .loadRegs x => regGroup x

/-- How many bytes an instruction stores, from `effAddr s 0` upward. -/
def storeWidthOf : Instr → Nat
  | .ret _ => 0
  | .cls _ => 0
  | .jp _ => 0
  | .call _ => 0
  | .seImm _ _ => 0
  | .sneImm _ _ => 0
  | .seReg _ _ => 0
  | .ldImm _ _ => 0
  | .addImm _ _ => 0
  | .ldReg _ _ => 0
  | .orReg _ _ => 0
  | .andReg _ _ => 0
  | .xorReg _ _ => 0
  | .addReg _ _ => 0
  | .sub _ _ => 0
  | .shr _ _ => 0
  | .subn _ _ => 0
  | .shl _ _ => 0
  | .sneReg _ _ => 0
  | .ldI _ => 0
  | .jpV0 _ => 0
  | .rnd _ _ => 0
  | .drw _ _ _ => 0
  | .skp _ => 0
  | .sknp _ => 0
  | .ldVxDt _ => 0
  | .ldVxK _ => 0
  | .ldDtVx _ => 0
  | .ldStVx _ => 0
  | .addI _ => 0
  | .ldF _ => 0
  | .ldB _ => 3
  | .storeRegs x => x.toNat + 1
  | .loadRegs _ => 0

/-- Only the register file differs, and there only register `x`. -/
def onlyReg (s t : State) (x : Nibble) : Prop :=
  (∀ r, r ≠ x → t.readV r = s.readV r) ∧ t = { s with v := t.v }

/-- Only the register file differs, and there only register `x` and VF. -/
def onlyRegAndFlag (s t : State) (x : Nibble) : Prop :=
  (∀ r, r ≠ x → r ≠ regVF → t.readV r = s.readV r) ∧ t = { s with v := t.v }

/-- Memory holds the bytes from `a` upward, as far as the address space goes, and is otherwise as before. -/
def memoryGets (s t : State) (a : Nat) (bytes : List Byte) : Prop :=
  (∀ k, k < bytes.length → a + k < Config.memSize → t.byteAt (a + k) = bytes.getD k 0) ∧
    ∀ p, p < a ∨ a + bytes.length ≤ p ∨ Config.memSize ≤ p → t.byteAt p = s.byteAt p

/-! ### Fault conditions (R250) -/

/-- The fault of a run of `n` byte accesses from `a` upward: the lowest address out of range (R259). -/
def firstOutOfRange (a n : Nat) : Option FaultCause :=
  if 0 < n ∧ Config.memSize < a + n then some (.addressOutOfRange (max a Config.memSize)) else none

/-- The fault an instruction raises at a state, if any: the conditions of R250's table. -/
def raisesAt (s : State) : Instr → Option FaultCause
  | .ret _ => if s.stack.length = 0 then some .stackUnderflow else none
  | .cls _ => none
  | .jp _ => none
  | .call _ => if Config.stackDepth ≤ s.stack.length then some .stackOverflow else none
  | .seImm _ _ => none
  | .sneImm _ _ => none
  | .seReg _ _ => none
  | .ldImm _ _ => none
  | .addImm _ _ => none
  | .ldReg _ _ => none
  | .orReg _ _ => none
  | .andReg _ _ => none
  | .xorReg _ _ => none
  | .addReg _ _ => none
  | .sub _ _ => none
  | .shr _ _ => none
  | .subn _ _ => none
  | .shl _ _ => none
  | .sneReg _ _ => none
  | .ldI _ => none
  | .jpV0 _ => none
  | .rnd _ _ => none
  | .drw _ _ n => firstOutOfRange (effAddr s 0) n.toNat
  | .skp x => if 15 < (s.readV x).toNat then some (.keyIndexOutOfRange (s.readV x)) else none
  | .sknp x => if 15 < (s.readV x).toNat then some (.keyIndexOutOfRange (s.readV x)) else none
  | .ldVxDt _ => none
  | .ldVxK _ => none
  | .ldDtVx _ => none
  | .ldStVx _ => none
  | .addI _ => none
  | .ldF _ => none
  | .ldB _ => firstOutOfRange (effAddr s 0) 3
  | .storeRegs x => firstOutOfRange (effAddr s 0) (x.toNat + 1)
  | .loadRegs x => firstOutOfRange (effAddr s 0) (x.toNat + 1)

/-! ### Sprites (R212, R214, R216) -/

/-- Does the sprite of `rows` rows at I, drawn at column `x0`, row `y0`, have a 1 bit at the pixel
`(px, py)`? Bits off the screen are dropped. -/
def spriteBitAt (s : State) (x0 y0 rows px py : Nat) : Bool :=
  decide (x0 ≤ px ∧ px - x0 < 8 ∧ y0 ≤ py ∧ py - y0 < rows ∧ px < Config.dispW ∧ py < Config.dispH) &&
    (s.byteAt (effAddr s (py - y0))).getLsbD (7 - (px - x0))

end Sys2Proof.Machine
end

