-- ==== Sys2Proof/Certificates/Slice0/Obligations.lean ====
section
/-! DEFINITION. The statements of this row, from the numbered rules of spec/. Each docstring names the rule. -/

open Sys2Proof Sys2Proof.Machine

/-! ## Encoding -/

/-- 30_encoding.md R95, R103: decoding the word of a well-formed instruction gives it back, every operand at
every value; no bit of an encoding is dropped.
(The kept bits that the hardware ignores are the model's, log 25.) -/
def Obligations.DecodeOfEncode : Prop :=
  ∀ i : Instr, i.wellFormed = true → decode (encode i) = .ok i

/-- 30_encoding.md R94, R95: a legal word stands for one well-formed instruction, whose word it is.
(Log 25 as above.) -/
def Obligations.EncodeOfDecode : Prop :=
  ∀ (op : Word) (i : Instr), decode op = .ok i → i.wellFormed = true ∧ encode i = op

/-- 30_encoding.md R107: the two-level decoder gives what the table's rows, tested in order, give: the first
row the word matches, and no instruction when it matches none.
(R107 is derived by the spec from R95, R96, R102; family 0 is its decision D6, log 6.) -/
def Obligations.DecoderFollowsOpcodeMap : Prop :=
  ∀ op : Word, (match decode op with | .ok i => some i.row | .error _ => none) = firstRow op

/-- 30_encoding.md R95, the operands of R92: a word under a row's mask decodes to that row's instruction with
the fields of its format; RET is tried before CLS.
(Family 0 is the spec's decision D6, log 6; the sub-opcode numbers of family 8 are log 24.) -/
def Obligations.MaskedWordsDecode : Prop :=
  ∀ op : Word,
    (op &&& 0xF00F = 0x000E → decode op = .ok (.ret (opMid op))) ∧
    (op &&& 0xF000 = 0x0000 → op &&& 0xF00F ≠ 0x000E → decode op = .ok (.cls (opNNN op))) ∧
    (op &&& 0xF000 = 0x1000 → decode op = .ok (.jp (opNNN op))) ∧
    (op &&& 0xF000 = 0x2000 → decode op = .ok (.call (opNNN op))) ∧
    (op &&& 0xF000 = 0x3000 → decode op = .ok (.seImm (opX op) (opKK op))) ∧
    (op &&& 0xF000 = 0x4000 → decode op = .ok (.sneImm (opX op) (opKK op))) ∧
    (op &&& 0xF00F = 0x5000 → decode op = .ok (.seReg (opX op) (opY op))) ∧
    (op &&& 0xF000 = 0x6000 → decode op = .ok (.ldImm (opX op) (opKK op))) ∧
    (op &&& 0xF000 = 0x7000 → decode op = .ok (.addImm (opX op) (opKK op))) ∧
    (op &&& 0xF00F = 0x8000 → decode op = .ok (.ldReg (opX op) (opY op))) ∧
    (op &&& 0xF00F = 0x8001 → decode op = .ok (.orReg (opX op) (opY op))) ∧
    (op &&& 0xF00F = 0x8002 → decode op = .ok (.andReg (opX op) (opY op))) ∧
    (op &&& 0xF00F = 0x8003 → decode op = .ok (.xorReg (opX op) (opY op))) ∧
    (op &&& 0xF00F = 0x8004 → decode op = .ok (.addReg (opX op) (opY op))) ∧
    (op &&& 0xF00F = 0x8005 → decode op = .ok (.sub (opX op) (opY op))) ∧
    (op &&& 0xF00F = 0x8006 → decode op = .ok (.shr (opX op) (opY op))) ∧
    (op &&& 0xF00F = 0x8007 → decode op = .ok (.subn (opX op) (opY op))) ∧
    (op &&& 0xF00F = 0x800E → decode op = .ok (.shl (opX op) (opY op))) ∧
    (op &&& 0xF00F = 0x9000 → decode op = .ok (.sneReg (opX op) (opY op))) ∧
    (op &&& 0xF000 = 0xA000 → decode op = .ok (.ldI (opNNN op))) ∧
    (op &&& 0xF000 = 0xB000 → decode op = .ok (.jpV0 (opNNN op))) ∧
    (op &&& 0xF000 = 0xC000 → decode op = .ok (.rnd (opX op) (opKK op))) ∧
    (op &&& 0xF000 = 0xD000 → decode op = .ok (.drw (opX op) (opY op) (opN op))) ∧
    (op &&& 0xF0FF = 0xE09E → decode op = .ok (.skp (opX op))) ∧
    (op &&& 0xF0FF = 0xE0A1 → decode op = .ok (.sknp (opX op))) ∧
    (op &&& 0xF0FF = 0xF007 → decode op = .ok (.ldVxDt (opX op))) ∧
    (op &&& 0xF0FF = 0xF00A → decode op = .ok (.ldVxK (opX op))) ∧
    (op &&& 0xF0FF = 0xF015 → decode op = .ok (.ldDtVx (opX op))) ∧
    (op &&& 0xF0FF = 0xF018 → decode op = .ok (.ldStVx (opX op))) ∧
    (op &&& 0xF0FF = 0xF01E → decode op = .ok (.addI (opX op))) ∧
    (op &&& 0xF0FF = 0xF029 → decode op = .ok (.ldF (opX op))) ∧
    (op &&& 0xF0FF = 0xF033 → decode op = .ok (.ldB (opX op))) ∧
    (op &&& 0xF0FF = 0xF055 → decode op = .ok (.storeRegs (opX op))) ∧
    (op &&& 0xF0FF = 0xF065 → decode op = .ok (.loadRegs (opX op)))

/-- 30_encoding.md R96, R98 to R102: a word is illegal exactly when its family is 5 or 9 with a non-zero low
nibble, 8 with a low nibble 8 to D or F, E with a low byte other than 9E and A1, F with a low byte that is
none of the nine; the rejection names the word.
(Families 5, 9 and E are the spec's decisions D7 and D8, log 7; family 8's numbers are log 24.) -/
def Obligations.IllegalWordsExactly : Prop :=
  ∀ op : Word,
    ((∃ e, decode op = .error e) ↔
      (opFamily op = 0x5 ∧ opN op ≠ 0x0) ∨
      (opFamily op = 0x8 ∧ opN op ∈ ([0x8, 0x9, 0xA, 0xB, 0xC, 0xD, 0xF] : List Nibble)) ∨
      (opFamily op = 0x9 ∧ opN op ≠ 0x0) ∨
      (opFamily op = 0xE ∧ opKK op ∉ ([0x9E, 0xA1] : List Byte)) ∨
      (opFamily op = 0xF ∧
        opKK op ∉ ([0x07, 0x0A, 0x15, 0x18, 0x1E, 0x29, 0x33, 0x55, 0x65] : List Byte))) ∧
    ∀ e, decode op = .error e → e = .unrecognized op

/-- Seven words the spec prints decode, or not, as it says: 22 34, 6A FA and F9 33 (95_test_vectors.md S6a, S6b,
S6c), 00 EE (F1), D0 12 (P5), E0 A1 (K3), 81 28 (T7); the first has one byte more behind it, which is left over.
(RET's word is the spec's decision D6, log 6; that 0x8128 is illegal rests on the family-8 numbers, log 24,
PRESUMED. The eighth string, one byte alone, is printed nowhere: that the decoder rejects it, and the name
`truncated`, are the model's own reading of R90, log 30.) -/
def Obligations.PrintedWordsDecode : Prop :=
  decodeBytes [0x22, 0x34, 0x6A] = .ok (.call 0x234, [0x6A]) ∧
  decodeBytes [0x6A, 0xFA] = .ok (.ldImm 0xA 0xFA, []) ∧
  decodeBytes [0x00, 0xEE] = .ok (.ret 0x0E, []) ∧
  decodeBytes [0xD0, 0x12] = .ok (.drw 0x0 0x1 0x2, []) ∧
  decodeBytes [0xF9, 0x33] = .ok (.ldB 0x9, []) ∧
  decodeBytes [0xE0, 0xA1] = .ok (.sknp 0x0, []) ∧
  decodeBytes [0x81, 0x28] = .error (.unrecognized 0x8128) ∧
  decodeBytes [0x12] = .error .truncated

/-- 30_encoding.md R103: the bits R103 lists affect nothing. Two words of family 0 that agree on whether the
low nibble is 0xE do the same; so do two SHR words, or two SHL words, that differ in `y` only. The `x` of
`LD Vx, K` (45_keys_timers.md R232) likewise.
(The spec's decisions D6, D9 and D12: logs 6, 8, 11.) -/
def Obligations.IgnoredBitsAffectNothing : Prop :=
  ∀ (op op' : Word) (s : State),
    (opFamily op = 0x0 → opFamily op' = 0x0 → (opN op = 0xE ↔ opN op' = 0xE) →
      execute op s = execute op' s) ∧
    (opFamily op = 0x8 → opFamily op' = 0x8 → opX op = opX op' → opN op = opN op' →
      (opN op = 0x6 ∨ opN op = 0xE) → execute op s = execute op' s) ∧
    (opFamily op = 0xF → opFamily op' = 0xF → opKK op = 0x0A → opKK op' = 0x0A →
      execute op s = execute op' s)

/-! ## The tick -/

/-- 40_tick_fetch_decode.md R120, R121, R123: when the next event is a tick of a machine neither halted nor
waiting, and the two bytes at PC exist and decode to `i`, the step is `exec i` at the state with DrawRequired
cleared and PC advanced by 2 (and the tick taken off the model's schedule), a latched fault reported as such.
(The schedule is log 1.) -/
def Obligations.StepRunsDecodedInstruction : Prop :=
  ∀ (s : State) (i : Instr), s.nextEvent = .tick → s.fault = none → s.waiting = false →
    s.pc.toNat + 1 < 4096 →
    decode (wordOfBytes (s.byteAt s.pc.toNat) (s.byteAt (s.pc.toNat + 1))) = .ok i →
    s.executes = some i ∧ step s = settle (exec i s.afterFetch)

/-- 00_scope.md R6, 10_state.md R40, 60_exceptions.md R256: a step is exactly one event, the next of the schedule
or a tick when none is left, with a state whose latch is set reported as a fault. (The schedule is the model's
own, log 1; so is that report, log 3.) -/
def Obligations.StepTakesNextEvent : Prop :=
  ∀ s : State,
    step s = settle (runEvent s.nextEvent { s with schedule := s.schedule.tail }) ∧
    (s.schedule = [] → s.nextEvent = .tick) ∧
    (∀ e rest, s.schedule = e :: rest → s.nextEvent = e)

/-- 40_tick_fetch_decode.md, section 1: a fetch above 4095 raises AddressOutOfRange(PC); at 4095 the second byte
raises AddressOutOfRange(4096). PC is not advanced, no handler runs, and only DrawRequired and the latch change.
(That PC + 1 is not truncated is the spec's own decision D16, log 15.) -/
def Obligations.FetchFaults : Prop :=
  ∀ s : State, s.nextEvent = .tick → s.fault = none → s.waiting = false → 4095 ≤ s.pc.toNat →
    step s = .fault (.halted (.addressOutOfRange (max s.pc.toNat 4096))
      { s with schedule := s.schedule.tail, drawReq := false,
               fault := some (.addressOutOfRange (max s.pc.toNat 4096)) })

/-- 40_tick_fetch_decode.md R124: an illegal word raises UnrecognizedOpcode(op) with PC already advanced by 2;
nothing else changed but DrawRequired.
(For families 5, 9 and E the spec's decisions D7 and D8, log 7.) -/
def Obligations.IllegalWordFaults : Prop :=
  ∀ (s : State) (e : DecodeError), s.nextEvent = .tick → s.fault = none → s.waiting = false →
    s.pc.toNat + 1 < 4096 → decode s.wordAtPc = .error e →
    step s = .fault (.halted (.unrecognizedOpcode s.wordAtPc)
      { s with schedule := s.schedule.tail, drawReq := false, pc := BitVec.ofNat 16 (s.pc.toNat + 2),
               fault := some (.unrecognizedOpcode s.wordAtPc) })

/-- 40_tick_fetch_decode.md R120 step (3), R127 (b): a tick taken while waiting fetches nothing and only
clears DrawRequired.
(The classification of R127 is derived by the spec.) -/
def Obligations.WaitingTickOnlyClearsDrawReq : Prop :=
  ∀ s : State, s.nextEvent = .tick → s.fault = none → s.waiting = true →
    step s = .next { s with schedule := s.schedule.tail, drawReq := false } ∧
      tickOutcome s = .blocked

/-- 60_exceptions.md R257, R267: on a halted machine every event but reset has no effect (the step reports the
same halt, at the same state less the event), and reset gives a next state with the latch clear.
(The latch is the spec's decision D2, log 3.) -/
def Obligations.HaltedUntilReset : Prop :=
  ∀ (s : State) (c : FaultCause), s.fault = some c →
    (s.nextEvent ≠ .reset →
      step s = .fault (.halted c { s with schedule := s.schedule.tail })) ∧
    (s.nextEvent = .reset → ∃ t, step s = .next t ∧ t.fault = none)

/-! ## Control transfer -/

/-- 41_flow.md R141: `JP nnn` sets PC to nnn, zero-extended, whatever nnn is; nothing else changes and it never
faults. -/
def Obligations.JumpSetsPc : Prop :=
  ∀ (nnn : Addr12) (s : State),
    ∃ t, exec (.jp nnn) s = .next t ∧ t.pc.toNat = nnn.toNat ∧ t = { s with pc := t.pc }

/-- 41_flow.md, family B: `JP V0, nnn` sets PC to V0 + nnn without any mask, at most 0x10FE, whatever the other
registers hold; nothing else changes and it never faults. (That nothing is masked is the spec's own decision
D27, log 21.) -/
def Obligations.IndexedJumpIsNotMasked : Prop :=
  ∀ (nnn : Addr12) (s : State),
    ∃ t, exec (.jpV0 nnn) s = .next t ∧ t.pc.toNat = (s.readV 0).toNat + nnn.toNat ∧
      t.pc.toNat ≤ 0x10FE ∧ t = { s with pc := t.pc }

/-- 41_flow.md R142: with fewer than 24 entries `CALL nnn` pushes PC, which is already advanced, and jumps;
with 24 it raises StackOverflow, pushes nothing and leaves PC.
(The overflow is the spec's decision D5, log 18.) -/
def Obligations.CallPushesReturnAddress : Prop :=
  ∀ (nnn : Addr12) (s : State),
    (s.stack.length < 24 → ∃ t, exec (.call nnn) s = .next t ∧ t.stack = s.pc :: s.stack ∧
      t.pc.toNat = nnn.toNat ∧ t = { s with pc := t.pc, stack := t.stack }) ∧
    (24 ≤ s.stack.length → exec (.call nnn) s = .next { s with fault := some .stackOverflow })

/-- 41_flow.md R140: `RET` pops the head into PC, all 16 bits; on an empty stack it raises StackUnderflow and
leaves the stack and PC.
(The underflow is the spec's decision D5, log 18.) -/
def Obligations.ReturnPopsIntoPc : Prop :=
  ∀ (ign : BitVec 8) (s : State),
    (∀ w rest, s.stack = w :: rest → exec (.ret ign) s = .next { s with pc := w, stack := rest }) ∧
    (s.stack = [] → exec (.ret ign) s = .next { s with fault := some .stackUnderflow })

/-- 41_flow.md R149 with R140, R142: a subroutine entered by CALL and left by RET comes back to the
instruction after the CALL, whatever else it did, as long as it left the stack as it found it. -/
def Obligations.CallThenReturnComesBack : Prop :=
  ∀ (nnn : Addr12) (ign : BitVec 8) (s t u : State), s.stack.length < 24 →
    exec (.call nnn) s = .next t → u.stack = t.stack →
    ∃ w, exec (.ret ign) u = .next w ∧ w.pc = s.pc ∧ w.stack = s.stack

/-- 41_flow.md R143, R144: `SE Vx, kk` adds 2 more to PC, modulo 2^16, when Vx = kk and otherwise does nothing;
`SNE Vx, kk` when they differ. Nothing but PC changes and neither faults. -/
def Obligations.SkipsOnImmediate : Prop :=
  ∀ (x : Nibble) (kk : Byte) (s : State),
    exec (.seImm x kk) s = .next { s with
      pc := if (s.readV x).toNat = kk.toNat then BitVec.ofNat 16 (s.pc.toNat + 2) else s.pc } ∧
    exec (.sneImm x kk) s = .next { s with
      pc := if (s.readV x).toNat = kk.toNat then s.pc else BitVec.ofNat 16 (s.pc.toNat + 2) }

/-- 41_flow.md, families 5 and 9: the legal forms of `SE Vx, Vy` and `SNE Vx, Vy` skip by the same primitive, so
with x = y the first always skips and the second never does. -/
def Obligations.SkipsOnTwoRegisters : Prop :=
  ∀ (x y : Nibble) (s : State),
    exec (.seReg x y) s = .next { s with
      pc := if (s.readV x).toNat = (s.readV y).toNat then BitVec.ofNat 16 (s.pc.toNat + 2) else s.pc } ∧
    exec (.sneReg x y) s = .next { s with
      pc := if (s.readV x).toNat = (s.readV y).toNat then s.pc else BitVec.ofNat 16 (s.pc.toNat + 2) } ∧
    exec (.seReg x x) s = .next { s with pc := BitVec.ofNat 16 (s.pc.toNat + 2) } ∧
    exec (.sneReg x x) s = .next s

/-! ## Register arithmetic -/

/-- 42_alu.md R160, R162: the two loads into a register write that register with the immediate, with the other
register, and change nothing else (with x = y nothing at all). -/
def Obligations.RegisterLoads : Prop :=
  ∀ (x y : Nibble) (kk : Byte) (s : State),
    (∃ t, exec (.ldImm x kk) s = .next t ∧ t.readV x = kk ∧ onlyReg s t x) ∧
    (∃ t, exec (.ldReg x y) s = .next t ∧ t.readV x = s.readV y ∧ onlyReg s t x) ∧
    ∃ t, exec (.ldReg x x) s = .next t ∧ ∀ r, t.readV r = s.readV r

/-- 42_alu.md R161, R174: `ADD Vx, kk` writes the sum modulo 256 and no flag: VF is unchanged unless it is the
destination. -/
def Obligations.AddImmediateWraps : Prop :=
  ∀ (x : Nibble) (kk : Byte) (s : State),
    ∃ t, exec (.addImm x kk) s = .next t ∧
      (t.readV x).toNat = ((s.readV x).toNat + kk.toNat) % 256 ∧ onlyReg s t x

/-- 42_alu.md R163, R165, R166: OR, AND and XOR work bit by bit and leave VF alone. -/
def Obligations.LogicBitByBit : Prop :=
  ∀ (x y : Nibble) (s : State),
    (∃ t, exec (.orReg x y) s = .next t ∧ onlyReg s t x ∧
      ∀ k, (t.readV x).getLsbD k = ((s.readV x).getLsbD k || (s.readV y).getLsbD k)) ∧
    (∃ t, exec (.andReg x y) s = .next t ∧ onlyReg s t x ∧
      ∀ k, (t.readV x).getLsbD k = ((s.readV x).getLsbD k && (s.readV y).getLsbD k)) ∧
    (∃ t, exec (.xorReg x y) s = .next t ∧ onlyReg s t x ∧
      ∀ k, (t.readV x).getLsbD k = ((s.readV x).getLsbD k ^^ (s.readV y).getLsbD k))

/-- 42_alu.md R167, R164: `ADD Vx, Vy` writes the sum modulo 256 to Vx, then VF = 1 if the sum of the old
values exceeds 255, else 0; with x = 15 the flag is what stays.
(The order with x = 15 is the spec's decision D10, log 9; the 0 without a carry is D11, log 10.) -/
def Obligations.AddSetsCarry : Prop :=
  ∀ (x y : Nibble) (s : State), ∃ t, exec (.addReg x y) s = .next t ∧
    (x ≠ 15 → (t.readV x).toNat = ((s.readV x).toNat + (s.readV y).toNat) % 256) ∧
    t.readV 15 = (if (s.readV x).toNat + (s.readV y).toNat > 255 then 1 else 0) ∧
    onlyRegAndFlag s t x

/-- 42_alu.md R168, R170, R164: SUB and SUBN write the difference modulo 256 to Vx, then VF = 1 exactly when
the minuend was strictly greater, so 0 on equal operands.
(The order with x = 15 is the spec's decision D10, log 9; SUBN's 0 is D11, log 10.) -/
def Obligations.SubtractSetsStrictFlag : Prop :=
  ∀ (x y : Nibble) (s : State),
    (∃ t, exec (.sub x y) s = .next t ∧
      (x ≠ 15 → ((t.readV x).toNat : Int) = ((s.readV x).toNat - (s.readV y).toNat : Int) % 256) ∧
      t.readV 15 = (if (s.readV x).toNat > (s.readV y).toNat then 1 else 0) ∧ onlyRegAndFlag s t x) ∧
    (∃ t, exec (.subn x y) s = .next t ∧
      (x ≠ 15 → ((t.readV x).toNat : Int) = ((s.readV y).toNat - (s.readV x).toNat : Int) % 256) ∧
      t.readV 15 = (if (s.readV y).toNat > (s.readV x).toNat then 1 else 0) ∧ onlyRegAndFlag s t x)

/-- 42_alu.md R169, R171, R164: SHR and SHL shift Vx in place by one bit, whatever `y` is, then VF is the bit
shifted out.
(In place, by the spec's decision D9, log 8; the order with x = 15 by D10, log 9.) -/
def Obligations.ShiftsSetShiftedOutBit : Prop :=
  ∀ (x y : Nibble) (s : State),
    (∃ t, exec (.shr x y) s = .next t ∧
      (x ≠ 15 → (t.readV x).toNat = (s.readV x).toNat / 2) ∧
      (t.readV 15).toNat = (s.readV x).toNat % 2 ∧ onlyRegAndFlag s t x) ∧
    (∃ t, exec (.shl x y) s = .next t ∧
      (x ≠ 15 → (t.readV x).toNat = (s.readV x).toNat * 2 % 256) ∧
      (t.readV 15).toNat = (s.readV x).toNat / 128 ∧ onlyRegAndFlag s t x)

/-- 42_alu.md R172, R173: `RND Vx, kk` draws exactly one byte, also when kk = 0: the next byte of the injected
sequence if there is one, else the free value of this draw (log 2, the model's form of R173's free input); Vx
gets it masked, every bit where kk has a 0 is 0, and nothing else changes. -/
def Obligations.RandomIsMasked : Prop :=
  ∀ (x : Nibble) (kk : Byte) (s : State), ∃ t, exec (.rnd x kk) s = .next t ∧
    (∀ b rest, s.supply = b :: rest → t.readV x = b &&& kk ∧ t.supply = rest) ∧
    (s.supply = [] → t.readV x = Config.randomByte s.draws &&& kk ∧ t.supply = []) ∧
    t.draws = s.draws + 1 ∧
    (∀ k, kk.getLsbD k = false → (t.readV x).getLsbD k = false) ∧
    (∀ r, r ≠ x → t.readV r = s.readV r) ∧
    t = { s with v := t.v, supply := t.supply, draws := t.draws }

/-! ## Index register and memory -/

/-- 43_index_memory.md R190, R192: `LD I, nnn` sets I to nnn, zero-extended; `LD F, Vx` sets I to 5 * Vx when Vx
is at most 15 and otherwise does nothing. Only I changes, memory is not consulted, and neither faults. -/
def Obligations.IndexRegisterLoads : Prop :=
  ∀ (x : Nibble) (nnn : Addr12) (s : State),
    (∃ t, exec (.ldI nnn) s = .next t ∧ t.i.toNat = nnn.toNat ∧ t = { s with i := t.i }) ∧
    (∃ t, exec (.ldF x) s = .next t ∧
      t.i.toNat = (if (s.readV x).toNat ≤ 15 then 5 * (s.readV x).toNat else s.i.toNat) ∧
      t = { s with i := t.i })

/-- 43_index_memory.md, family F 1E: `ADD I, Vx` adds Vx, zero-extended, modulo 2^16 and not modulo 2^12; no flag,
no fault, nothing but I changes. (The width of the sum is the spec's own decision D27, log 21.) -/
def Obligations.AddToIndexWraps : Prop :=
  ∀ (x : Nibble) (s : State),
    ∃ t, exec (.addI x) s = .next t ∧ t.i.toNat = (s.i.toNat + (s.readV x).toNat) % 65536 ∧
      t = { s with i := t.i }

/-- 43_index_memory.md R193: with I at most 4093 `LD B, Vx` stores hundreds, tens and ones at I, I + 1, I + 2,
changes no other byte and nothing else. (The premise on memory is the invariant of StepKeepsInvariant.) -/
def Obligations.DecimalDigitsStored : Prop :=
  ∀ (x : Nibble) (s : State), Memory.wf s.mem → s.i.toNat ≤ 4093 →
    ∃ t, exec (.ldB x) s = .next t ∧
      (t.byteAt s.i.toNat).toNat = (s.readV x).toNat / 100 ∧
      (t.byteAt (s.i.toNat + 1)).toNat = (s.readV x).toNat / 10 % 10 ∧
      (t.byteAt (s.i.toNat + 2)).toNat = (s.readV x).toNat % 10 ∧
      (∀ p, p < s.i.toNat ∨ s.i.toNat + 3 ≤ p → t.byteAt p = s.byteAt p) ∧
      t = { s with mem := t.mem }

/-- 43_index_memory.md R195: with I + x at most 4095 `LD [I], Vx` stores V0..Vx at I..I+x, changes no other
byte and nothing else, I included.
(The store past 4095 is StoreFaultsArePrecise.) -/
def Obligations.RegistersStored : Prop :=
  ∀ (x : Nibble) (s : State), Memory.wf s.mem → s.i.toNat + x.toNat ≤ 4095 →
    ∃ t, exec (.storeRegs x) s = .next t ∧
      (∀ k : Nibble, k.toNat ≤ x.toNat → t.byteAt (s.i.toNat + k.toNat) = s.readV k) ∧
      (∀ p, p < s.i.toNat ∨ s.i.toNat + x.toNat < p → t.byteAt p = s.byteAt p) ∧
      t = { s with mem := t.mem }

/-- 43_index_memory.md R196: with I + x at most 4095 `LD Vx, [I]` loads V0..Vx from I..I+x; the registers above
x, I, memory and everything else keep their values.
(The load past 4095 is LoadFaultsArePrecise.) -/
def Obligations.RegistersLoaded : Prop :=
  ∀ (x : Nibble) (s : State), s.i.toNat + x.toNat ≤ 4095 →
    ∃ t, exec (.loadRegs x) s = .next t ∧
      (∀ k : Nibble, k.toNat ≤ x.toNat → t.readV k = s.byteAt (s.i.toNat + k.toNat)) ∧
      (∀ k : Nibble, x.toNat < k.toNat → t.readV k = s.readV k) ∧
      t = { s with v := t.v }

/-- 60_exceptions.md R258 with 20_memory.md R75: a multi-byte store that passes 4095 has stored the bytes below
the failing address, latches the lowest failing address, and has changed nothing else.
(Partial effects are the spec's decision D4, log 4; the untruncated address is D16, log 15.) -/
def Obligations.StoreFaultsArePrecise : Prop :=
  ∀ (x : Nibble) (s : State), Memory.wf s.mem →
    (4095 < s.i.toNat + 2 → ∃ t, exec (.ldB x) s = .next t ∧
      memoryGets s t (effAddr s 0) (bcdDigits (s.readV x)) ∧
      t = { s with mem := t.mem, fault := some (.addressOutOfRange (max s.i.toNat 4096)) }) ∧
    (4095 < s.i.toNat + x.toNat → ∃ t, exec (.storeRegs x) s = .next t ∧
      memoryGets s t (effAddr s 0) ((regGroup x).map s.readV) ∧
      t = { s with mem := t.mem, fault := some (.addressOutOfRange (max s.i.toNat 4096)) })

/-- 60_exceptions.md R258 with 20_memory.md R75: a register load that passes 4095 has loaded the registers
below the failing index, latches the lowest failing address, and has changed nothing else.
(Decisions D4 and D16, logs 4 and 15.) -/
def Obligations.LoadFaultsArePrecise : Prop :=
  ∀ (x : Nibble) (s : State), 4095 < s.i.toNat + x.toNat →
    ∃ t, exec (.loadRegs x) s = .next t ∧
      (∀ k : Nibble, k.toNat ≤ x.toNat → s.i.toNat + k.toNat ≤ 4095 →
        t.readV k = s.byteAt (s.i.toNat + k.toNat)) ∧
      (∀ k : Nibble, x.toNat < k.toNat ∨ 4095 < s.i.toNat + k.toNat → t.readV k = s.readV k) ∧
      t = { s with v := t.v, fault := some (.addressOutOfRange (max s.i.toNat 4096)) }

/-- 43_index_memory.md R196 (round trip): dumping V0..Vx and loading them back from the same I gives the
original values, whatever happened to the registers between, and leaves I. -/
def Obligations.DumpLoadRoundTrip : Prop :=
  ∀ (x : Nibble) (s t u : State), Memory.wf s.mem → s.i.toNat + x.toNat ≤ 4095 →
    exec (.storeRegs x) s = .next t → u.mem = t.mem → u.i = t.i →
    ∃ w, exec (.loadRegs x) u = .next w ∧ w.i = s.i ∧
      ∀ k : Nibble, k.toNat ≤ x.toNat → w.readV k = s.readV k

/-- 20_memory.md R73: a store is seen by the very next fetch, with no further action: the word fetched from two
bytes just stored is those two registers, high byte first.
(R73 is derived by the spec from R62, R63, R64, R70.) -/
def Obligations.StoreSeenByNextFetch : Prop :=
  ∀ (x k : Nibble) (s t : State), Memory.wf s.mem → s.i.toNat + x.toNat ≤ 4095 →
    exec (.storeRegs x) s = .next t → k.toNat + 1 ≤ x.toNat → t.pc.toNat = s.i.toNat + k.toNat →
    memReadWord t.pc.toNat t = .ok (wordOfBytes (s.readV k) (s.readV (k + 1)))

/-! ## Display -/

/-- 44_display.md R215: `CLS` sets every pixel to 0 and DrawRequired to 1, changes nothing else and never
faults. (That DrawRequired is set also on a clear display is the spec's decision D14, log 13; that every ignored
bit pattern is this instruction is D6, log 6.) -/
def Obligations.ClearScreen : Prop :=
  ∀ (ign : BitVec 12) (s : State), ∃ t, exec (.cls ign) s = .next t ∧
    (∀ x y, pixelAt t.pix x y = false) ∧ t.drawReq = true ∧
    t = { s with pix := t.pix, drawReq := t.drawReq }

/-- 44_display.md R216 with R211, R212, R214: whenever the sprite's bytes exist, `DRW Vx, Vy, n` toggles exactly
the pixels under a 1 bit of the sprite placed at column Vx mod 64, row Vy mod 32, with the bits off the screen
dropped; VF becomes 1 if some pixel that was set lies under a 1 bit and 0 otherwise; DrawRequired becomes 1;
every other register and everything else is unchanged.
(The reduction modulo 64 and 32 and the reading of every row are the spec's decision D15, log 14; DrawRequired
is D14, log 13.) -/
def Obligations.DrawTogglesSpritePixels : Prop :=
  ∀ (x y n : Nibble) (s : State), n.toNat = 0 ∨ s.i.toNat + n.toNat ≤ 4096 →
    ∃ t, exec (.drw x y n) s = .next t ∧
      (∀ px py, pixelAt t.pix px py = (pixelAt s.pix px py ^^
        spriteBitAt s ((s.readV x).toNat % 64) ((s.readV y).toNat % 32) n.toNat px py)) ∧
      (t.readV 15 = 0 ∨ t.readV 15 = 1) ∧
      (t.readV 15 = 1 ↔ ∃ px py, pixelAt s.pix px py = true ∧
        spriteBitAt s ((s.readV x).toNat % 64) ((s.readV y).toNat % 32) n.toNat px py = true) ∧
      (∀ r, r ≠ 15 → t.readV r = s.readV r) ∧ t.drawReq = true ∧
      t = { s with pix := t.pix, v := t.v, drawReq := t.drawReq }

/-- 60_exceptions.md R258 with 44_display.md R216: a draw whose sprite passes 4095 has drawn the rows before the
failing one, latches the lowest failing address, and has written neither VF nor DrawRequired.
(Decisions D4, D15 and D16, logs 4, 14 and 15.) -/
def Obligations.DrawFaultsArePrecise : Prop :=
  ∀ (x y n : Nibble) (s : State), n.toNat ≠ 0 → 4096 < s.i.toNat + n.toNat →
    ∃ t, exec (.drw x y n) s = .next t ∧
      (∀ px py, pixelAt t.pix px py = (pixelAt s.pix px py ^^
        spriteBitAt s ((s.readV x).toNat % 64) ((s.readV y).toNat % 32) (4096 - s.i.toNat) px py)) ∧
      t = { s with pix := t.pix, fault := some (.addressOutOfRange (max s.i.toNat 4096)) }

/-- 44_display.md R217: drawing the same sprite at the same place twice restores the display: for the row
blitter always, and for `DRW` provided the coordinate registers still hold their values at the second draw.
(R217 is derived by the spec from R211, R212, R216.) -/
def Obligations.DrawIsSelfInverse : Prop :=
  (∀ (x0 y0 : Nat) (b : Byte) (d : Display),
    (drawSprite x0 y0 b (drawSprite x0 y0 b d).1).1 = d) ∧
  ∀ (x y n : Nibble) (s t : State), n.toNat = 0 ∨ s.i.toNat + n.toNat ≤ 4096 →
    exec (.drw x y n) s = .next t → t.readV x = s.readV x → t.readV y = s.readV y →
    ∃ u, exec (.drw x y n) t = .next u ∧ u.pix = s.pix

/-- 44_display.md R211: `set_pixel` off the grid is a no-op returning false; on the grid it XORs the pixel with
the bit, leaves every other pixel, and reports an erasure exactly when the pixel was set and the bit is 1.
(That the XOR stands in the primitive is derived by the spec.) -/
def Obligations.SetPixelPrimitive : Prop :=
  ∀ (px py : Nat) (on : Bool) (d : Display),
    (¬(px ≤ 63 ∧ py ≤ 31) → setPixel px py on d = (d, false)) ∧
    (px ≤ 63 ∧ py ≤ 31 →
      pixelAt (setPixel px py on d).1 px py = (pixelAt d px py ^^ on) ∧
      (∀ x y, ¬(x = px ∧ y = py) → pixelAt (setPixel px py on d).1 x y = pixelAt d x y) ∧
      ((setPixel px py on d).2 = true ↔ pixelAt d px py = true ∧ on = true))

/-! ## Keys and timers -/

/-- 45_keys_timers.md R230, R231, R236: with Vx at most 15, SKP skips when that key is down and SKNP when it is
up, changing nothing but PC; with Vx above 15 both raise KeyIndexOutOfRange(Vx) and do nothing else.
(The fault is the spec's decision D13, log 12.) -/
def Obligations.KeySkips : Prop :=
  ∀ (x : Nibble) (s : State),
    ((s.readV x).toNat ≤ 15 →
      exec (.skp x) s = .next { s with
        pc := if s.readKey (BitVec.ofNat 4 (s.readV x).toNat) then BitVec.ofNat 16 (s.pc.toNat + 2)
              else s.pc } ∧
      exec (.sknp x) s = .next { s with
        pc := if s.readKey (BitVec.ofNat 4 (s.readV x).toNat) then s.pc
              else BitVec.ofNat 16 (s.pc.toNat + 2) }) ∧
    (15 < (s.readV x).toNat →
      exec (.skp x) s = .next { s with fault := some (.keyIndexOutOfRange (s.readV x)) } ∧
      exec (.sknp x) s = .next { s with fault := some (.keyIndexOutOfRange (s.readV x)) })

/-- 45_keys_timers.md R233, R234: `LD Vx, DT` copies the delay timer into Vx and `LD DT, Vx` copies Vx into the
delay timer; neither sets DrawRequired or changes anything else, and neither faults.
(That they do not set DrawRequired is the spec's decision D14, its resolution of conflict C1, log 13.) -/
def Obligations.DelayTimerTransfers : Prop :=
  ∀ (x : Nibble) (s : State),
    (∃ t, exec (.ldVxDt x) s = .next t ∧ t.readV x = s.dt ∧ onlyReg s t x) ∧
    (∃ t, exec (.ldDtVx x) s = .next t ∧ t.dt = s.readV x ∧ t = { s with dt := t.dt })

/-- 45_keys_timers.md, family F 0A and 18: `LD Vx, K` only sets waiting, and writes no register (the spec's own
decision D12, log 11); `LD ST, Vx` sets ST and appends start_sound exactly when Vx is positive, also over a
positive ST, and never stop_sound (decision D17, log 16). -/
def Obligations.WaitAndSoundWrites : Prop :=
  ∀ (x : Nibble) (s : State),
    (∃ t, exec (.ldVxK x) s = .next t ∧ t.waiting = true ∧ t = { s with waiting := t.waiting }) ∧
    (∃ t, exec (.ldStVx x) s = .next t ∧ t.st = s.readV x ∧
      t.outputs = s.outputs ++ (if 0 < (s.readV x).toNat then [.startSound] else []) ∧
      t = { s with st := t.st, outputs := t.outputs })

/-- 60_exceptions.md R262: the timer step takes each timer down by 1 but never below 0, whether or not the machine
waits for a key, and emits stop_sound exactly when it takes ST from 1 to 0; nothing else changes. With a fault
latched it has no effect. (That halted machine, R257, is the spec's decision D2, log 3; that stop_sound comes
from here is its decision D17, log 16.) -/
def Obligations.TimerStep : Prop :=
  ∀ s : State,
    (s.fault = none → ∃ t, runEvent .advanceTimers s = .next t ∧
      t.dt.toNat = s.dt.toNat - 1 ∧ t.st.toNat = s.st.toNat - 1 ∧
      t.outputs = s.outputs ++ (if s.st.toNat = 1 then [.stopSound] else []) ∧
      t = { s with dt := t.dt, st := t.st, outputs := t.outputs }) ∧
    (s.fault ≠ none → runEvent .advanceTimers s = .next s)

/-- 60_exceptions.md R264, R265: a press sets the latch bit of its key, a release clears it, and either ends any
wait, unconditionally; no other key, no register and nothing else changes. With a fault latched neither has an
effect. (That halted machine, R257, is the spec's decision D2, log 3.) -/
def Obligations.KeyEvents : Prop :=
  ∀ (s : State) (k : Nibble),
    (s.fault = none →
      (∃ t, runEvent (.keyDown k) s = .next t ∧ t.readKey k = true ∧ t.waiting = false ∧
        (∀ j, j ≠ k → t.readKey j = s.readKey j) ∧ t = { s with key := t.key, waiting := t.waiting }) ∧
      (∃ t, runEvent (.keyUp k) s = .next t ∧ t.readKey k = false ∧ t.waiting = false ∧
        (∀ j, j ≠ k → t.readKey j = s.readKey j) ∧ t = { s with key := t.key, waiting := t.waiting })) ∧
    (s.fault ≠ none → runEvent (.keyDown k) s = .next s ∧ runEvent (.keyUp k) s = .next s)

/-! ## Host events and reset -/

/-- 70_reset_and_hazards.md R295: `load` of at most 3584 bytes copies them to 0x200 upward and changes nothing
else; a longer image has no meaning and is refused by name.
(The length limit is the spec's decision D26; that the model refuses beyond it is log 19.) -/
def Obligations.LoadCopiesImage : Prop :=
  ∀ (s : State) (bytes : List Byte), s.nextEvent = .load bytes → s.fault = none →
    (bytes.length ≤ 3584 → Memory.wf s.mem →
      ∃ t, step s = .next t ∧
        (∀ k, k < bytes.length → t.byteAt (0x200 + k) = bytes.getD k 0) ∧
        (∀ p, p < 0x200 ∨ 0x200 + bytes.length ≤ p → t.byteAt p = s.byteAt p) ∧
        t = { s with mem := t.mem, schedule := s.schedule.tail }) ∧
    (3584 < bytes.length → step s = .refused (.overlongImage bytes.length))

/-- 70_reset_and_hazards.md R290, R292 with 10_state.md R44: from any state whatever, halted or waiting too,
reset gives the state of R44's table, emits nothing and leaves the random source alone; a second reset
changes nothing more. (That it keeps the model's own list of notifications and events still to come is logs 26
and 27; the font bytes are the spec's default of the parameter FONT, log 5.) -/
def Obligations.ResetEstablishesTable : Prop :=
  ∀ s : State, s.nextEvent = .reset →
    ∃ t, step s = .next t ∧ t.IsReset ∧ t.outputs = s.outputs ∧ t.supply = s.supply ∧
      t.draws = s.draws ∧ t.schedule = s.schedule.tail ∧
      (t.nextEvent = .reset → step t = .next { t with schedule := t.schedule.tail })

/-- 10_state.md R44, R291: the power-on state has the values of R44's table, with no notification emitted.
(Power-on equal to reset is the spec's decision D18, log 17; the font bytes are log 5.) -/
def Obligations.PowerOnIsReset : Prop :=
  State.reset.IsReset ∧ State.reset.outputs = [] ∧
    (∀ d : Nat, d < 16 → ∀ k, k < 5 →
      State.reset.byteAt (5 * d + k) = fontTable.getD (5 * d + k) 0)

/-! ## The whole machine -/

/-- Every step keeps the invariant `State.Inv`: memory in canonical form (the model's own data structure), at
most 24 stack entries (10_state.md R30), PC and the return addresses in the range R24 derives; also the state
a fault outcome carries keeps it.
(The form of memory is log 28.) -/
def Obligations.StepKeepsInvariant : Prop :=
  ∀ s t : State, s.Inv →
    (step s = .next t → t.Inv) ∧ (∀ c, step s = .fault (.halted c t) → t.Inv)

/-- The state after reset has the invariant. -/
def Obligations.ResetHasInvariant : Prop := State.reset.Inv

/-- 10_state.md R24: after any sequence of steps from reset, with any events in any order (loads of any image
among them) and any random bytes, PC is at most 0x10FE, the stack at most 24 deep, memory in canonical form,
and the machine not halted.
(R24 is derived by the spec; events and random bytes are logs 1 and 2.) -/
def Obligations.ReachableStatesLegal : Prop :=
  ∀ (events : List Event) (bytes : List Byte) (n : Nat) (t : State),
    Host.Core.run Sys2Proof.core n { State.reset with schedule := events, supply := bytes } = .next t →
      State.Inv t ∧ State.fault t = none

/-- 10_state.md R47: an instruction changes only the state elements its row of R47 lists as written; of the
registers only its destination and, for the six instructions of R21, VF; of memory only the bytes it stores,
from the address I (its own effective address) upward.
(R47 is derived by the spec from the instruction rules.) -/
def Obligations.FrameOfEveryInstruction : Prop :=
  ∀ (i : Instr) (s t : State), exec i s = .next t →
    (∀ e : Elem, e ∉ writesOf i → e.same s t) ∧
    (∀ r : Nibble, r ∉ regWritesOf i → t.readV r = s.readV r) ∧
    (∀ p : Nat, p < effAddr s 0 ∨ effAddr s 0 + storeWidthOf i ≤ p → t.byteAt p = s.byteAt p)

/-- 60_exceptions.md R250, R274, R259: every instruction answers a next state at every state; it raises exactly
the fault R250 tabulates for it, at the lowest failing address, exactly under R250's condition, and otherwise
leaves the latch.
(The conditions rest on the spec's decisions D5, D13, D15, D16: logs 18, 12, 14, 15.) -/
def Obligations.FaultsExactlyAsTabulated : Prop :=
  ∀ (i : Instr) (s : State), ∃ t, exec i s = .next t ∧
    t.fault = (raisesAt s i).or s.fault

/-- 10_state.md R21: apart from instructions that name VF as a destination, only ADD, SUB, SHR, SUBN, SHL and
DRW change VF, and each of them, unless it raised, leaves exactly 0 or 1 in it.
(Always 0 or 1 is the spec's decision D11, log 10.) -/
def Obligations.FlagRegisterDiscipline : Prop :=
  ∀ (i : Instr) (s t : State), exec i s = .next t →
    (regVF ∉ regWritesOf i → t.readV 15 = s.readV 15) ∧
    (raisesAt s i = none →
      ((∃ x y, i = .addReg x y ∨ i = .sub x y ∨ i = .shr x y ∨ i = .subn x y ∨ i = .shl x y) ∨
        ∃ x y n, i = .drw x y n) →
      t.readV 15 = 0 ∨ t.readV 15 = 1)

/-- 60_exceptions.md R268: start_sound is emitted by `LD ST, Vx` with a positive value and stop_sound by the
timer step taking ST from 1 to 0; nothing else emits either, and nothing removes one.
(When either is emitted is the spec's decision D17, log 16. That a reset event keeps the list, so that nothing
removes one, is the model's choice, log 26. Steps that answer a fault are left out.) -/
def Obligations.OnlySoundEventsEmit : Prop :=
  ∀ s t : State, step s = .next t →
    (∃ x, s.executes = some (.ldStVx x) ∧ 0 < (s.readV x).toNat ∧
      t.outputs = s.outputs ++ [.startSound]) ∨
    (s.nextEvent = .advanceTimers ∧ s.fault = none ∧ s.st.toNat = 1 ∧
      t.outputs = s.outputs ++ [.stopSound]) ∨
    t.outputs = s.outputs

/-- 10_state.md R29, 60_exceptions.md R272: waiting is set only by `LD Vx, K` and left only by a key event or
reset. -/
def Obligations.WaitingDiscipline : Prop :=
  ∀ s t : State, step s = .next t →
    (s.waiting = false → t.waiting = true → ∃ x, s.executes = some (.ldVxK x)) ∧
    (s.waiting = true → t.waiting = false →
      s.nextEvent = .reset ∨ ∃ k, s.nextEvent = .keyDown k ∨ s.nextEvent = .keyUp k)

/-- 10_state.md R28, 40_tick_fetch_decode.md R126: a latch bit changes only by an event of its own key or by
reset: no instruction writes it. -/
def Obligations.KeyLatchDiscipline : Prop :=
  ∀ (s t : State) (k : Nibble), step s = .next t → t.readKey k ≠ s.readKey k →
    s.nextEvent = .reset ∨ s.nextEvent = .keyDown k ∨ s.nextEvent = .keyUp k

/-- 10_state.md R36, 70_reset_and_hazards.md R305: after a tick DrawRequired is 1 exactly when that tick
executed CLS or DRW; no other event but reset changes it.
(The spec's decision D14, log 13.) -/
def Obligations.DrawRequiredLivesOneTick : Prop :=
  ∀ s t : State, step s = .next t →
    (s.nextEvent = .tick → (t.drawReq = true ↔
      (∃ ign, s.executes = some (.cls ign)) ∨ ∃ x y n, s.executes = some (.drw x y n))) ∧
    (s.nextEvent ≠ .tick → s.nextEvent ≠ .reset → t.drawReq = s.drawReq)

/-- 40_tick_fetch_decode.md R127: the three outcomes of a tick: executed answers a next state at an instruction,
blocked leaves all but DrawRequired, faulted answers a fault outcome.
(R127 is derived by the spec; the report of a fault is log 3.) -/
def Obligations.TickHasThreeOutcomes : Prop :=
  ∀ s : State, s.schedule = [] →
    (tickOutcome s = .executed → ∃ i t, s.executes = some i ∧ step s = .next t) ∧
    (tickOutcome s = .faulted → ∃ c t, step s = .fault (.halted c t)) ∧
    (tickOutcome s = .blocked →
      (∃ c, s.fault = some c ∧ step s = .fault (.halted c s)) ∨
      (s.fault = none ∧ s.waiting = true ∧ step s = .next { s with drawReq := false }))
end

