-- ==== Sys2Proof/Laws/State.lean ====
section
/-! SUPPORT. One lemma per field per field update of Machine/Ops.lean, each true by rfl, and what the
readers `readV`, `readKey`, `byteAt` give after an update: no later proof unfolds a record update. -/

namespace Sys2Proof.Machine

/-! ### The parameters as numbers (R5) -/

@[simp] theorem memSize_eq : Config.memSize = 4096 := rfl
@[simp] theorem stackDepth_eq : Config.stackDepth = 24 := rfl
@[simp] theorem progBase_eq : Config.progBase = 512 := rfl
@[simp] theorem maxImage_eq : Config.maxImage = 3584 := rfl
@[simp] theorem dispW_eq : Config.dispW = 64 := rfl
@[simp] theorem dispH_eq : Config.dispH = 32 := rfl
@[simp] theorem fontBytes_eq : Config.fontBytes = 80 := rfl

variable (s : State)

/-! ### setV -/

@[simp] theorem State.setV_v (x : Nibble) (b : Byte) : (s.setV x b).v = s.v.set x.toNat b x.isLt := rfl
@[simp] theorem State.setV_pc (x : Nibble) (b : Byte) : (s.setV x b).pc = s.pc := rfl
@[simp] theorem State.setV_i (x : Nibble) (b : Byte) : (s.setV x b).i = s.i := rfl
@[simp] theorem State.setV_dt (x : Nibble) (b : Byte) : (s.setV x b).dt = s.dt := rfl
@[simp] theorem State.setV_st (x : Nibble) (b : Byte) : (s.setV x b).st = s.st := rfl
@[simp] theorem State.setV_key (x : Nibble) (b : Byte) : (s.setV x b).key = s.key := rfl
@[simp] theorem State.setV_waiting (x : Nibble) (b : Byte) : (s.setV x b).waiting = s.waiting := rfl
@[simp] theorem State.setV_drawReq (x : Nibble) (b : Byte) : (s.setV x b).drawReq = s.drawReq := rfl
@[simp] theorem State.setV_fault (x : Nibble) (b : Byte) : (s.setV x b).fault = s.fault := rfl
@[simp] theorem State.setV_stack (x : Nibble) (b : Byte) : (s.setV x b).stack = s.stack := rfl
@[simp] theorem State.setV_pix (x : Nibble) (b : Byte) : (s.setV x b).pix = s.pix := rfl
@[simp] theorem State.setV_mem (x : Nibble) (b : Byte) : (s.setV x b).mem = s.mem := rfl
@[simp] theorem State.setV_outputs (x : Nibble) (b : Byte) : (s.setV x b).outputs = s.outputs := rfl
@[simp] theorem State.setV_supply (x : Nibble) (b : Byte) : (s.setV x b).supply = s.supply := rfl
@[simp] theorem State.setV_draws (x : Nibble) (b : Byte) : (s.setV x b).draws = s.draws := rfl
@[simp] theorem State.setV_schedule (x : Nibble) (b : Byte) : (s.setV x b).schedule = s.schedule := rfl
@[simp] theorem State.setV_readKey (x : Nibble) (b : Byte) (r : Nibble) : (s.setV x b).readKey r = s.readKey r := rfl
@[simp] theorem State.setV_byteAt (x : Nibble) (b : Byte) (at_ : Nat) : (s.setV x b).byteAt at_ = s.byteAt at_ := rfl

/-! ### setPc -/

@[simp] theorem State.setPc_v (w : Word) : (s.setPc w).v = s.v := rfl
@[simp] theorem State.setPc_pc (w : Word) : (s.setPc w).pc = w := rfl
@[simp] theorem State.setPc_i (w : Word) : (s.setPc w).i = s.i := rfl
@[simp] theorem State.setPc_dt (w : Word) : (s.setPc w).dt = s.dt := rfl
@[simp] theorem State.setPc_st (w : Word) : (s.setPc w).st = s.st := rfl
@[simp] theorem State.setPc_key (w : Word) : (s.setPc w).key = s.key := rfl
@[simp] theorem State.setPc_waiting (w : Word) : (s.setPc w).waiting = s.waiting := rfl
@[simp] theorem State.setPc_drawReq (w : Word) : (s.setPc w).drawReq = s.drawReq := rfl
@[simp] theorem State.setPc_fault (w : Word) : (s.setPc w).fault = s.fault := rfl
@[simp] theorem State.setPc_stack (w : Word) : (s.setPc w).stack = s.stack := rfl
@[simp] theorem State.setPc_pix (w : Word) : (s.setPc w).pix = s.pix := rfl
@[simp] theorem State.setPc_mem (w : Word) : (s.setPc w).mem = s.mem := rfl
@[simp] theorem State.setPc_outputs (w : Word) : (s.setPc w).outputs = s.outputs := rfl
@[simp] theorem State.setPc_supply (w : Word) : (s.setPc w).supply = s.supply := rfl
@[simp] theorem State.setPc_draws (w : Word) : (s.setPc w).draws = s.draws := rfl
@[simp] theorem State.setPc_schedule (w : Word) : (s.setPc w).schedule = s.schedule := rfl
@[simp] theorem State.setPc_readV (w : Word) (r : Nibble) : (s.setPc w).readV r = s.readV r := rfl
@[simp] theorem State.setPc_readKey (w : Word) (r : Nibble) : (s.setPc w).readKey r = s.readKey r := rfl
@[simp] theorem State.setPc_byteAt (w : Word) (at_ : Nat) : (s.setPc w).byteAt at_ = s.byteAt at_ := rfl

/-! ### setI -/

@[simp] theorem State.setI_v (w : Word) : (s.setI w).v = s.v := rfl
@[simp] theorem State.setI_pc (w : Word) : (s.setI w).pc = s.pc := rfl
@[simp] theorem State.setI_i (w : Word) : (s.setI w).i = w := rfl
@[simp] theorem State.setI_dt (w : Word) : (s.setI w).dt = s.dt := rfl
@[simp] theorem State.setI_st (w : Word) : (s.setI w).st = s.st := rfl
@[simp] theorem State.setI_key (w : Word) : (s.setI w).key = s.key := rfl
@[simp] theorem State.setI_waiting (w : Word) : (s.setI w).waiting = s.waiting := rfl
@[simp] theorem State.setI_drawReq (w : Word) : (s.setI w).drawReq = s.drawReq := rfl
@[simp] theorem State.setI_fault (w : Word) : (s.setI w).fault = s.fault := rfl
@[simp] theorem State.setI_stack (w : Word) : (s.setI w).stack = s.stack := rfl
@[simp] theorem State.setI_pix (w : Word) : (s.setI w).pix = s.pix := rfl
@[simp] theorem State.setI_mem (w : Word) : (s.setI w).mem = s.mem := rfl
@[simp] theorem State.setI_outputs (w : Word) : (s.setI w).outputs = s.outputs := rfl
@[simp] theorem State.setI_supply (w : Word) : (s.setI w).supply = s.supply := rfl
@[simp] theorem State.setI_draws (w : Word) : (s.setI w).draws = s.draws := rfl
@[simp] theorem State.setI_schedule (w : Word) : (s.setI w).schedule = s.schedule := rfl
@[simp] theorem State.setI_readV (w : Word) (r : Nibble) : (s.setI w).readV r = s.readV r := rfl
@[simp] theorem State.setI_readKey (w : Word) (r : Nibble) : (s.setI w).readKey r = s.readKey r := rfl
@[simp] theorem State.setI_byteAt (w : Word) (at_ : Nat) : (s.setI w).byteAt at_ = s.byteAt at_ := rfl

/-! ### setDt -/

@[simp] theorem State.setDt_v (b : Byte) : (s.setDt b).v = s.v := rfl
@[simp] theorem State.setDt_pc (b : Byte) : (s.setDt b).pc = s.pc := rfl
@[simp] theorem State.setDt_i (b : Byte) : (s.setDt b).i = s.i := rfl
@[simp] theorem State.setDt_dt (b : Byte) : (s.setDt b).dt = b := rfl
@[simp] theorem State.setDt_st (b : Byte) : (s.setDt b).st = s.st := rfl
@[simp] theorem State.setDt_key (b : Byte) : (s.setDt b).key = s.key := rfl
@[simp] theorem State.setDt_waiting (b : Byte) : (s.setDt b).waiting = s.waiting := rfl
@[simp] theorem State.setDt_drawReq (b : Byte) : (s.setDt b).drawReq = s.drawReq := rfl
@[simp] theorem State.setDt_fault (b : Byte) : (s.setDt b).fault = s.fault := rfl
@[simp] theorem State.setDt_stack (b : Byte) : (s.setDt b).stack = s.stack := rfl
@[simp] theorem State.setDt_pix (b : Byte) : (s.setDt b).pix = s.pix := rfl
@[simp] theorem State.setDt_mem (b : Byte) : (s.setDt b).mem = s.mem := rfl
@[simp] theorem State.setDt_outputs (b : Byte) : (s.setDt b).outputs = s.outputs := rfl
@[simp] theorem State.setDt_supply (b : Byte) : (s.setDt b).supply = s.supply := rfl
@[simp] theorem State.setDt_draws (b : Byte) : (s.setDt b).draws = s.draws := rfl
@[simp] theorem State.setDt_schedule (b : Byte) : (s.setDt b).schedule = s.schedule := rfl
@[simp] theorem State.setDt_readV (b : Byte) (r : Nibble) : (s.setDt b).readV r = s.readV r := rfl
@[simp] theorem State.setDt_readKey (b : Byte) (r : Nibble) : (s.setDt b).readKey r = s.readKey r := rfl
@[simp] theorem State.setDt_byteAt (b : Byte) (at_ : Nat) : (s.setDt b).byteAt at_ = s.byteAt at_ := rfl

/-! ### setSt -/

@[simp] theorem State.setSt_v (b : Byte) : (s.setSt b).v = s.v := rfl
@[simp] theorem State.setSt_pc (b : Byte) : (s.setSt b).pc = s.pc := rfl
@[simp] theorem State.setSt_i (b : Byte) : (s.setSt b).i = s.i := rfl
@[simp] theorem State.setSt_dt (b : Byte) : (s.setSt b).dt = s.dt := rfl
@[simp] theorem State.setSt_st (b : Byte) : (s.setSt b).st = b := rfl
@[simp] theorem State.setSt_key (b : Byte) : (s.setSt b).key = s.key := rfl
@[simp] theorem State.setSt_waiting (b : Byte) : (s.setSt b).waiting = s.waiting := rfl
@[simp] theorem State.setSt_drawReq (b : Byte) : (s.setSt b).drawReq = s.drawReq := rfl
@[simp] theorem State.setSt_fault (b : Byte) : (s.setSt b).fault = s.fault := rfl
@[simp] theorem State.setSt_stack (b : Byte) : (s.setSt b).stack = s.stack := rfl
@[simp] theorem State.setSt_pix (b : Byte) : (s.setSt b).pix = s.pix := rfl
@[simp] theorem State.setSt_mem (b : Byte) : (s.setSt b).mem = s.mem := rfl
@[simp] theorem State.setSt_outputs (b : Byte) : (s.setSt b).outputs = s.outputs := rfl
@[simp] theorem State.setSt_supply (b : Byte) : (s.setSt b).supply = s.supply := rfl
@[simp] theorem State.setSt_draws (b : Byte) : (s.setSt b).draws = s.draws := rfl
@[simp] theorem State.setSt_schedule (b : Byte) : (s.setSt b).schedule = s.schedule := rfl
@[simp] theorem State.setSt_readV (b : Byte) (r : Nibble) : (s.setSt b).readV r = s.readV r := rfl
@[simp] theorem State.setSt_readKey (b : Byte) (r : Nibble) : (s.setSt b).readKey r = s.readKey r := rfl
@[simp] theorem State.setSt_byteAt (b : Byte) (at_ : Nat) : (s.setSt b).byteAt at_ = s.byteAt at_ := rfl

/-! ### setKey -/

@[simp] theorem State.setKey_v (k : Nibble) (on : Bool) : (s.setKey k on).v = s.v := rfl
@[simp] theorem State.setKey_pc (k : Nibble) (on : Bool) : (s.setKey k on).pc = s.pc := rfl
@[simp] theorem State.setKey_i (k : Nibble) (on : Bool) : (s.setKey k on).i = s.i := rfl
@[simp] theorem State.setKey_dt (k : Nibble) (on : Bool) : (s.setKey k on).dt = s.dt := rfl
@[simp] theorem State.setKey_st (k : Nibble) (on : Bool) : (s.setKey k on).st = s.st := rfl
@[simp] theorem State.setKey_key (k : Nibble) (on : Bool) : (s.setKey k on).key = s.key.set k.toNat on k.isLt := rfl
@[simp] theorem State.setKey_waiting (k : Nibble) (on : Bool) : (s.setKey k on).waiting = s.waiting := rfl
@[simp] theorem State.setKey_drawReq (k : Nibble) (on : Bool) : (s.setKey k on).drawReq = s.drawReq := rfl
@[simp] theorem State.setKey_fault (k : Nibble) (on : Bool) : (s.setKey k on).fault = s.fault := rfl
@[simp] theorem State.setKey_stack (k : Nibble) (on : Bool) : (s.setKey k on).stack = s.stack := rfl
@[simp] theorem State.setKey_pix (k : Nibble) (on : Bool) : (s.setKey k on).pix = s.pix := rfl
@[simp] theorem State.setKey_mem (k : Nibble) (on : Bool) : (s.setKey k on).mem = s.mem := rfl
@[simp] theorem State.setKey_outputs (k : Nibble) (on : Bool) : (s.setKey k on).outputs = s.outputs := rfl
@[simp] theorem State.setKey_supply (k : Nibble) (on : Bool) : (s.setKey k on).supply = s.supply := rfl
@[simp] theorem State.setKey_draws (k : Nibble) (on : Bool) : (s.setKey k on).draws = s.draws := rfl
@[simp] theorem State.setKey_schedule (k : Nibble) (on : Bool) : (s.setKey k on).schedule = s.schedule := rfl
@[simp] theorem State.setKey_readV (k : Nibble) (on : Bool) (r : Nibble) : (s.setKey k on).readV r = s.readV r := rfl
@[simp] theorem State.setKey_byteAt (k : Nibble) (on : Bool) (at_ : Nat) : (s.setKey k on).byteAt at_ = s.byteAt at_ := rfl

/-! ### setWaiting -/

@[simp] theorem State.setWaiting_v (on : Bool) : (s.setWaiting on).v = s.v := rfl
@[simp] theorem State.setWaiting_pc (on : Bool) : (s.setWaiting on).pc = s.pc := rfl
@[simp] theorem State.setWaiting_i (on : Bool) : (s.setWaiting on).i = s.i := rfl
@[simp] theorem State.setWaiting_dt (on : Bool) : (s.setWaiting on).dt = s.dt := rfl
@[simp] theorem State.setWaiting_st (on : Bool) : (s.setWaiting on).st = s.st := rfl
@[simp] theorem State.setWaiting_key (on : Bool) : (s.setWaiting on).key = s.key := rfl
@[simp] theorem State.setWaiting_waiting (on : Bool) : (s.setWaiting on).waiting = on := rfl
@[simp] theorem State.setWaiting_drawReq (on : Bool) : (s.setWaiting on).drawReq = s.drawReq := rfl
@[simp] theorem State.setWaiting_fault (on : Bool) : (s.setWaiting on).fault = s.fault := rfl
@[simp] theorem State.setWaiting_stack (on : Bool) : (s.setWaiting on).stack = s.stack := rfl
@[simp] theorem State.setWaiting_pix (on : Bool) : (s.setWaiting on).pix = s.pix := rfl
@[simp] theorem State.setWaiting_mem (on : Bool) : (s.setWaiting on).mem = s.mem := rfl
@[simp] theorem State.setWaiting_outputs (on : Bool) : (s.setWaiting on).outputs = s.outputs := rfl
@[simp] theorem State.setWaiting_supply (on : Bool) : (s.setWaiting on).supply = s.supply := rfl
@[simp] theorem State.setWaiting_draws (on : Bool) : (s.setWaiting on).draws = s.draws := rfl
@[simp] theorem State.setWaiting_schedule (on : Bool) : (s.setWaiting on).schedule = s.schedule := rfl
@[simp] theorem State.setWaiting_readV (on : Bool) (r : Nibble) : (s.setWaiting on).readV r = s.readV r := rfl
@[simp] theorem State.setWaiting_readKey (on : Bool) (r : Nibble) : (s.setWaiting on).readKey r = s.readKey r := rfl
@[simp] theorem State.setWaiting_byteAt (on : Bool) (at_ : Nat) : (s.setWaiting on).byteAt at_ = s.byteAt at_ := rfl

/-! ### setDrawReq -/

@[simp] theorem State.setDrawReq_v (on : Bool) : (s.setDrawReq on).v = s.v := rfl
@[simp] theorem State.setDrawReq_pc (on : Bool) : (s.setDrawReq on).pc = s.pc := rfl
@[simp] theorem State.setDrawReq_i (on : Bool) : (s.setDrawReq on).i = s.i := rfl
@[simp] theorem State.setDrawReq_dt (on : Bool) : (s.setDrawReq on).dt = s.dt := rfl
@[simp] theorem State.setDrawReq_st (on : Bool) : (s.setDrawReq on).st = s.st := rfl
@[simp] theorem State.setDrawReq_key (on : Bool) : (s.setDrawReq on).key = s.key := rfl
@[simp] theorem State.setDrawReq_waiting (on : Bool) : (s.setDrawReq on).waiting = s.waiting := rfl
@[simp] theorem State.setDrawReq_drawReq (on : Bool) : (s.setDrawReq on).drawReq = on := rfl
@[simp] theorem State.setDrawReq_fault (on : Bool) : (s.setDrawReq on).fault = s.fault := rfl
@[simp] theorem State.setDrawReq_stack (on : Bool) : (s.setDrawReq on).stack = s.stack := rfl
@[simp] theorem State.setDrawReq_pix (on : Bool) : (s.setDrawReq on).pix = s.pix := rfl
@[simp] theorem State.setDrawReq_mem (on : Bool) : (s.setDrawReq on).mem = s.mem := rfl
@[simp] theorem State.setDrawReq_outputs (on : Bool) : (s.setDrawReq on).outputs = s.outputs := rfl
@[simp] theorem State.setDrawReq_supply (on : Bool) : (s.setDrawReq on).supply = s.supply := rfl
@[simp] theorem State.setDrawReq_draws (on : Bool) : (s.setDrawReq on).draws = s.draws := rfl
@[simp] theorem State.setDrawReq_schedule (on : Bool) : (s.setDrawReq on).schedule = s.schedule := rfl
@[simp] theorem State.setDrawReq_readV (on : Bool) (r : Nibble) : (s.setDrawReq on).readV r = s.readV r := rfl
@[simp] theorem State.setDrawReq_readKey (on : Bool) (r : Nibble) : (s.setDrawReq on).readKey r = s.readKey r := rfl
@[simp] theorem State.setDrawReq_byteAt (on : Bool) (at_ : Nat) : (s.setDrawReq on).byteAt at_ = s.byteAt at_ := rfl

/-! ### setFault -/

@[simp] theorem State.setFault_v (f : Option FaultCause) : (s.setFault f).v = s.v := rfl
@[simp] theorem State.setFault_pc (f : Option FaultCause) : (s.setFault f).pc = s.pc := rfl
@[simp] theorem State.setFault_i (f : Option FaultCause) : (s.setFault f).i = s.i := rfl
@[simp] theorem State.setFault_dt (f : Option FaultCause) : (s.setFault f).dt = s.dt := rfl
@[simp] theorem State.setFault_st (f : Option FaultCause) : (s.setFault f).st = s.st := rfl
@[simp] theorem State.setFault_key (f : Option FaultCause) : (s.setFault f).key = s.key := rfl
@[simp] theorem State.setFault_waiting (f : Option FaultCause) : (s.setFault f).waiting = s.waiting := rfl
@[simp] theorem State.setFault_drawReq (f : Option FaultCause) : (s.setFault f).drawReq = s.drawReq := rfl
@[simp] theorem State.setFault_fault (f : Option FaultCause) : (s.setFault f).fault = f := rfl
@[simp] theorem State.setFault_stack (f : Option FaultCause) : (s.setFault f).stack = s.stack := rfl
@[simp] theorem State.setFault_pix (f : Option FaultCause) : (s.setFault f).pix = s.pix := rfl
@[simp] theorem State.setFault_mem (f : Option FaultCause) : (s.setFault f).mem = s.mem := rfl
@[simp] theorem State.setFault_outputs (f : Option FaultCause) : (s.setFault f).outputs = s.outputs := rfl
@[simp] theorem State.setFault_supply (f : Option FaultCause) : (s.setFault f).supply = s.supply := rfl
@[simp] theorem State.setFault_draws (f : Option FaultCause) : (s.setFault f).draws = s.draws := rfl
@[simp] theorem State.setFault_schedule (f : Option FaultCause) : (s.setFault f).schedule = s.schedule := rfl
@[simp] theorem State.setFault_readV (f : Option FaultCause) (r : Nibble) : (s.setFault f).readV r = s.readV r := rfl
@[simp] theorem State.setFault_readKey (f : Option FaultCause) (r : Nibble) : (s.setFault f).readKey r = s.readKey r := rfl
@[simp] theorem State.setFault_byteAt (f : Option FaultCause) (at_ : Nat) : (s.setFault f).byteAt at_ = s.byteAt at_ := rfl

/-! ### setStack -/

@[simp] theorem State.setStack_v (l : List Word) : (s.setStack l).v = s.v := rfl
@[simp] theorem State.setStack_pc (l : List Word) : (s.setStack l).pc = s.pc := rfl
@[simp] theorem State.setStack_i (l : List Word) : (s.setStack l).i = s.i := rfl
@[simp] theorem State.setStack_dt (l : List Word) : (s.setStack l).dt = s.dt := rfl
@[simp] theorem State.setStack_st (l : List Word) : (s.setStack l).st = s.st := rfl
@[simp] theorem State.setStack_key (l : List Word) : (s.setStack l).key = s.key := rfl
@[simp] theorem State.setStack_waiting (l : List Word) : (s.setStack l).waiting = s.waiting := rfl
@[simp] theorem State.setStack_drawReq (l : List Word) : (s.setStack l).drawReq = s.drawReq := rfl
@[simp] theorem State.setStack_fault (l : List Word) : (s.setStack l).fault = s.fault := rfl
@[simp] theorem State.setStack_stack (l : List Word) : (s.setStack l).stack = l := rfl
@[simp] theorem State.setStack_pix (l : List Word) : (s.setStack l).pix = s.pix := rfl
@[simp] theorem State.setStack_mem (l : List Word) : (s.setStack l).mem = s.mem := rfl
@[simp] theorem State.setStack_outputs (l : List Word) : (s.setStack l).outputs = s.outputs := rfl
@[simp] theorem State.setStack_supply (l : List Word) : (s.setStack l).supply = s.supply := rfl
@[simp] theorem State.setStack_draws (l : List Word) : (s.setStack l).draws = s.draws := rfl
@[simp] theorem State.setStack_schedule (l : List Word) : (s.setStack l).schedule = s.schedule := rfl
@[simp] theorem State.setStack_readV (l : List Word) (r : Nibble) : (s.setStack l).readV r = s.readV r := rfl
@[simp] theorem State.setStack_readKey (l : List Word) (r : Nibble) : (s.setStack l).readKey r = s.readKey r := rfl
@[simp] theorem State.setStack_byteAt (l : List Word) (at_ : Nat) : (s.setStack l).byteAt at_ = s.byteAt at_ := rfl

/-! ### setPix -/

@[simp] theorem State.setPix_v (d : Display) : (s.setPix d).v = s.v := rfl
@[simp] theorem State.setPix_pc (d : Display) : (s.setPix d).pc = s.pc := rfl
@[simp] theorem State.setPix_i (d : Display) : (s.setPix d).i = s.i := rfl
@[simp] theorem State.setPix_dt (d : Display) : (s.setPix d).dt = s.dt := rfl
@[simp] theorem State.setPix_st (d : Display) : (s.setPix d).st = s.st := rfl
@[simp] theorem State.setPix_key (d : Display) : (s.setPix d).key = s.key := rfl
@[simp] theorem State.setPix_waiting (d : Display) : (s.setPix d).waiting = s.waiting := rfl
@[simp] theorem State.setPix_drawReq (d : Display) : (s.setPix d).drawReq = s.drawReq := rfl
@[simp] theorem State.setPix_fault (d : Display) : (s.setPix d).fault = s.fault := rfl
@[simp] theorem State.setPix_stack (d : Display) : (s.setPix d).stack = s.stack := rfl
@[simp] theorem State.setPix_pix (d : Display) : (s.setPix d).pix = d := rfl
@[simp] theorem State.setPix_mem (d : Display) : (s.setPix d).mem = s.mem := rfl
@[simp] theorem State.setPix_outputs (d : Display) : (s.setPix d).outputs = s.outputs := rfl
@[simp] theorem State.setPix_supply (d : Display) : (s.setPix d).supply = s.supply := rfl
@[simp] theorem State.setPix_draws (d : Display) : (s.setPix d).draws = s.draws := rfl
@[simp] theorem State.setPix_schedule (d : Display) : (s.setPix d).schedule = s.schedule := rfl
@[simp] theorem State.setPix_readV (d : Display) (r : Nibble) : (s.setPix d).readV r = s.readV r := rfl
@[simp] theorem State.setPix_readKey (d : Display) (r : Nibble) : (s.setPix d).readKey r = s.readKey r := rfl
@[simp] theorem State.setPix_byteAt (d : Display) (at_ : Nat) : (s.setPix d).byteAt at_ = s.byteAt at_ := rfl

/-! ### setMem -/

@[simp] theorem State.setMem_v (m : Memory) : (s.setMem m).v = s.v := rfl
@[simp] theorem State.setMem_pc (m : Memory) : (s.setMem m).pc = s.pc := rfl
@[simp] theorem State.setMem_i (m : Memory) : (s.setMem m).i = s.i := rfl
@[simp] theorem State.setMem_dt (m : Memory) : (s.setMem m).dt = s.dt := rfl
@[simp] theorem State.setMem_st (m : Memory) : (s.setMem m).st = s.st := rfl
@[simp] theorem State.setMem_key (m : Memory) : (s.setMem m).key = s.key := rfl
@[simp] theorem State.setMem_waiting (m : Memory) : (s.setMem m).waiting = s.waiting := rfl
@[simp] theorem State.setMem_drawReq (m : Memory) : (s.setMem m).drawReq = s.drawReq := rfl
@[simp] theorem State.setMem_fault (m : Memory) : (s.setMem m).fault = s.fault := rfl
@[simp] theorem State.setMem_stack (m : Memory) : (s.setMem m).stack = s.stack := rfl
@[simp] theorem State.setMem_pix (m : Memory) : (s.setMem m).pix = s.pix := rfl
@[simp] theorem State.setMem_mem (m : Memory) : (s.setMem m).mem = m := rfl
@[simp] theorem State.setMem_outputs (m : Memory) : (s.setMem m).outputs = s.outputs := rfl
@[simp] theorem State.setMem_supply (m : Memory) : (s.setMem m).supply = s.supply := rfl
@[simp] theorem State.setMem_draws (m : Memory) : (s.setMem m).draws = s.draws := rfl
@[simp] theorem State.setMem_schedule (m : Memory) : (s.setMem m).schedule = s.schedule := rfl
@[simp] theorem State.setMem_readV (m : Memory) (r : Nibble) : (s.setMem m).readV r = s.readV r := rfl
@[simp] theorem State.setMem_readKey (m : Memory) (r : Nibble) : (s.setMem m).readKey r = s.readKey r := rfl

/-! ### emit -/

@[simp] theorem State.emit_v (n : Notification) : (s.emit n).v = s.v := rfl
@[simp] theorem State.emit_pc (n : Notification) : (s.emit n).pc = s.pc := rfl
@[simp] theorem State.emit_i (n : Notification) : (s.emit n).i = s.i := rfl
@[simp] theorem State.emit_dt (n : Notification) : (s.emit n).dt = s.dt := rfl
@[simp] theorem State.emit_st (n : Notification) : (s.emit n).st = s.st := rfl
@[simp] theorem State.emit_key (n : Notification) : (s.emit n).key = s.key := rfl
@[simp] theorem State.emit_waiting (n : Notification) : (s.emit n).waiting = s.waiting := rfl
@[simp] theorem State.emit_drawReq (n : Notification) : (s.emit n).drawReq = s.drawReq := rfl
@[simp] theorem State.emit_fault (n : Notification) : (s.emit n).fault = s.fault := rfl
@[simp] theorem State.emit_stack (n : Notification) : (s.emit n).stack = s.stack := rfl
@[simp] theorem State.emit_pix (n : Notification) : (s.emit n).pix = s.pix := rfl
@[simp] theorem State.emit_mem (n : Notification) : (s.emit n).mem = s.mem := rfl
@[simp] theorem State.emit_outputs (n : Notification) : (s.emit n).outputs = s.outputs ++ [n] := rfl
@[simp] theorem State.emit_supply (n : Notification) : (s.emit n).supply = s.supply := rfl
@[simp] theorem State.emit_draws (n : Notification) : (s.emit n).draws = s.draws := rfl
@[simp] theorem State.emit_schedule (n : Notification) : (s.emit n).schedule = s.schedule := rfl
@[simp] theorem State.emit_readV (n : Notification) (r : Nibble) : (s.emit n).readV r = s.readV r := rfl
@[simp] theorem State.emit_readKey (n : Notification) (r : Nibble) : (s.emit n).readKey r = s.readKey r := rfl
@[simp] theorem State.emit_byteAt (n : Notification) (at_ : Nat) : (s.emit n).byteAt at_ = s.byteAt at_ := rfl

/-! ### setDrawn -/

@[simp] theorem State.setDrawn_v (rest : List Byte) : (s.setDrawn rest).v = s.v := rfl
@[simp] theorem State.setDrawn_pc (rest : List Byte) : (s.setDrawn rest).pc = s.pc := rfl
@[simp] theorem State.setDrawn_i (rest : List Byte) : (s.setDrawn rest).i = s.i := rfl
@[simp] theorem State.setDrawn_dt (rest : List Byte) : (s.setDrawn rest).dt = s.dt := rfl
@[simp] theorem State.setDrawn_st (rest : List Byte) : (s.setDrawn rest).st = s.st := rfl
@[simp] theorem State.setDrawn_key (rest : List Byte) : (s.setDrawn rest).key = s.key := rfl
@[simp] theorem State.setDrawn_waiting (rest : List Byte) : (s.setDrawn rest).waiting = s.waiting := rfl
@[simp] theorem State.setDrawn_drawReq (rest : List Byte) : (s.setDrawn rest).drawReq = s.drawReq := rfl
@[simp] theorem State.setDrawn_fault (rest : List Byte) : (s.setDrawn rest).fault = s.fault := rfl
@[simp] theorem State.setDrawn_stack (rest : List Byte) : (s.setDrawn rest).stack = s.stack := rfl
@[simp] theorem State.setDrawn_pix (rest : List Byte) : (s.setDrawn rest).pix = s.pix := rfl
@[simp] theorem State.setDrawn_mem (rest : List Byte) : (s.setDrawn rest).mem = s.mem := rfl
@[simp] theorem State.setDrawn_outputs (rest : List Byte) : (s.setDrawn rest).outputs = s.outputs := rfl
@[simp] theorem State.setDrawn_supply (rest : List Byte) : (s.setDrawn rest).supply = rest := rfl
@[simp] theorem State.setDrawn_draws (rest : List Byte) : (s.setDrawn rest).draws = s.draws + 1 := rfl
@[simp] theorem State.setDrawn_schedule (rest : List Byte) : (s.setDrawn rest).schedule = s.schedule := rfl
@[simp] theorem State.setDrawn_readV (rest : List Byte) (r : Nibble) : (s.setDrawn rest).readV r = s.readV r := rfl
@[simp] theorem State.setDrawn_readKey (rest : List Byte) (r : Nibble) : (s.setDrawn rest).readKey r = s.readKey r := rfl
@[simp] theorem State.setDrawn_byteAt (rest : List Byte) (at_ : Nat) : (s.setDrawn rest).byteAt at_ = s.byteAt at_ := rfl

/-! ### setSchedule -/

@[simp] theorem State.setSchedule_v (l : List Event) : (s.setSchedule l).v = s.v := rfl
@[simp] theorem State.setSchedule_pc (l : List Event) : (s.setSchedule l).pc = s.pc := rfl
@[simp] theorem State.setSchedule_i (l : List Event) : (s.setSchedule l).i = s.i := rfl
@[simp] theorem State.setSchedule_dt (l : List Event) : (s.setSchedule l).dt = s.dt := rfl
@[simp] theorem State.setSchedule_st (l : List Event) : (s.setSchedule l).st = s.st := rfl
@[simp] theorem State.setSchedule_key (l : List Event) : (s.setSchedule l).key = s.key := rfl
@[simp] theorem State.setSchedule_waiting (l : List Event) : (s.setSchedule l).waiting = s.waiting := rfl
@[simp] theorem State.setSchedule_drawReq (l : List Event) : (s.setSchedule l).drawReq = s.drawReq := rfl
@[simp] theorem State.setSchedule_fault (l : List Event) : (s.setSchedule l).fault = s.fault := rfl
@[simp] theorem State.setSchedule_stack (l : List Event) : (s.setSchedule l).stack = s.stack := rfl
@[simp] theorem State.setSchedule_pix (l : List Event) : (s.setSchedule l).pix = s.pix := rfl
@[simp] theorem State.setSchedule_mem (l : List Event) : (s.setSchedule l).mem = s.mem := rfl
@[simp] theorem State.setSchedule_outputs (l : List Event) : (s.setSchedule l).outputs = s.outputs := rfl
@[simp] theorem State.setSchedule_supply (l : List Event) : (s.setSchedule l).supply = s.supply := rfl
@[simp] theorem State.setSchedule_draws (l : List Event) : (s.setSchedule l).draws = s.draws := rfl
@[simp] theorem State.setSchedule_schedule (l : List Event) : (s.setSchedule l).schedule = l := rfl
@[simp] theorem State.setSchedule_readV (l : List Event) (r : Nibble) : (s.setSchedule l).readV r = s.readV r := rfl
@[simp] theorem State.setSchedule_readKey (l : List Event) (r : Nibble) : (s.setSchedule l).readKey r = s.readKey r := rfl
@[simp] theorem State.setSchedule_byteAt (l : List Event) (at_ : Nat) : (s.setSchedule l).byteAt at_ = s.byteAt at_ := rfl

/-! ### The indexed updates -/

theorem nibble_toNat_ne {x y : Nibble} (h : x ≠ y) : x.toNat ≠ y.toNat :=
  fun e => h (BitVec.eq_of_toNat_eq e)

/-- A register write is read back. -/
@[simp] theorem State.readV_setV_same (x : Nibble) (b : Byte) : (s.setV x b).readV x = b := by
  simp [State.readV, State.setV]

/-- A register write leaves every other register. -/
@[simp] theorem State.readV_setV_ne {x y : Nibble} (b : Byte) (h : y ≠ x) :
    (s.setV x b).readV y = s.readV y := by
  simp [State.readV, State.setV, nibble_toNat_ne (Ne.symm h)]

/-- Reading any register after a register write. -/
theorem State.readV_setV (x y : Nibble) (b : Byte) :
    (s.setV x b).readV y = if y = x then b else s.readV y := by
  by_cases h : y = x
  · subst h; simp
  · simp [h]

@[simp] theorem State.readKey_setKey_same (k : Nibble) (on : Bool) : (s.setKey k on).readKey k = on := by
  simp [State.readKey, State.setKey]

@[simp] theorem State.readKey_setKey_ne {k j : Nibble} (on : Bool) (h : j ≠ k) :
    (s.setKey k on).readKey j = s.readKey j := by
  simp [State.readKey, State.setKey, nibble_toNat_ne (Ne.symm h)]

@[simp] theorem State.byteAt_setMem (m : Memory) (a : Nat) : (s.setMem m).byteAt a = Memory.read m a := rfl

/-- Every register of a state just reset is 0 (R44). -/
theorem State.reset_readV (x : Nibble) : State.reset.readV x = 0 := by
  simp [State.reset, State.readV]

/-- Every key of a state just reset is up (R44). -/
theorem State.reset_readKey (k : Nibble) : State.reset.readKey k = false := by
  simp [State.reset, State.readKey]

end Sys2Proof.Machine
end

