-- ==== Sys2Proof/Laws/Memory.lean ====
section
/-! SUPPORT. The laws of memory (20_memory.md rules R62, R63, R68): a read after a write, and that every
memory operation keeps the canonical form. -/

namespace Sys2Proof.Machine

/-- Every address in the list is above a bound. -/
theorem Memory.read_of_all_above {m : Memory} {a : Nat} (h : ∀ c ∈ m, a < c.1) :
    Memory.read m a = unlistedByte a := by
  induction m with
  | nil => rfl
  | cons c rest ih =>
    have hc : a ≠ c.1 := Nat.ne_of_lt (h c (by simp))
    simp [Memory.read, hc, ih fun d hd => h d (by simp [hd])]

theorem Memory.read_consCell_same {m : Memory} {a : Nat} {b : Byte} (h : ∀ c ∈ m, a < c.1) :
    Memory.read (Memory.consCell a b m) a = b := by
  unfold Memory.consCell
  split
  · rename_i hb; rw [hb, Memory.read_of_all_above h]
  · simp [Memory.read]

theorem Memory.read_consCell_other {m : Memory} {a a' : Nat} {b : Byte} (h : a' ≠ a) :
    Memory.read (Memory.consCell a b m) a' = Memory.read m a' := by
  unfold Memory.consCell
  split
  · rfl
  · simp [Memory.read, h]

/-- A write leaves every other place alone, in any list. -/
theorem Memory.read_write_other (m : Memory) {a a' : Nat} (b : Byte) (h : a' ≠ a) :
    Memory.read (Memory.write m a b) a' = Memory.read m a' := by
  induction m with
  | nil => exact Memory.read_consCell_other h
  | cons c rest ih =>
    obtain ⟨k, d⟩ := c
    unfold Memory.write
    split
    · exact Memory.read_consCell_other h
    · split
      · rename_i hk
        rw [Memory.read_consCell_other h]
        simp [Memory.read, show a' ≠ k from hk ▸ h]
      · simp [Memory.read, ih]

/-- A read after a write to the same place gives the byte written, in any list in rising order. -/
theorem Memory.read_write_same {m : Memory} (hm : m.Pairwise fun c d => c.1 < d.1) (a : Nat) (b : Byte) :
    Memory.read (Memory.write m a b) a = b := by
  induction m with
  | nil => exact Memory.read_consCell_same (by simp)
  | cons c rest ih =>
    obtain ⟨k, d⟩ := c
    obtain ⟨hk, hr⟩ := List.pairwise_cons.mp hm
    unfold Memory.write
    split
    · rename_i h
      refine Memory.read_consCell_same fun e he => ?_
      rcases List.mem_cons.mp he with rfl | he
      · exact h
      · exact Nat.lt_trans h (hk e he)
    · split
      · rename_i h; subst h; exact Memory.read_consCell_same hk
      · rename_i h; simp [Memory.read, h, ih hr]

/-- A cell of the memory after a write is the written one or an old one at another address. -/
theorem Memory.mem_write {m : Memory} (hm : m.Pairwise fun c d => c.1 < d.1) {a : Nat} {b : Byte}
    {c : Host.Cell} (hc : c ∈ Memory.write m a b) :
    (c = (a, b) ∧ b ≠ unlistedByte a) ∨ (c ∈ m ∧ c.1 ≠ a) := by
  have cons {m' : Memory} (h : c ∈ Memory.consCell a b m') :
      (c = (a, b) ∧ b ≠ unlistedByte a) ∨ c ∈ m' := by
    unfold Memory.consCell at h
    split at h
    · exact .inr h
    · rename_i hb
      exact (List.mem_cons.mp h).imp (fun e => ⟨e, hb⟩) id
  induction m with
  | nil => exact (cons hc).imp id (by simp)
  | cons d rest ih =>
    obtain ⟨k, e⟩ := d
    obtain ⟨hk, hr⟩ := List.pairwise_cons.mp hm
    unfold Memory.write at hc
    split at hc
    · rename_i h
      refine (cons hc).imp id fun hm' => ⟨hm', ?_⟩
      rcases List.mem_cons.mp hm' with rfl | h'
      · exact Nat.ne_of_gt h
      · exact Nat.ne_of_gt (Nat.lt_trans h (hk c h'))
    · split at hc
      · rename_i h
        subst h
        exact (cons hc).imp id fun h' => ⟨List.mem_cons_of_mem _ h', Nat.ne_of_gt (hk c h')⟩
      · rename_i h1 h2
        rcases List.mem_cons.mp hc with rfl | hc
        · exact .inr ⟨by simp, Ne.symm h2⟩
        · exact (ih hr hc).imp id fun h' => ⟨List.mem_cons_of_mem _ h'.1, h'.2⟩

/-- A write keeps the addresses in rising order. -/
theorem Memory.write_sorted {m : Memory} (hm : m.Pairwise fun c d => c.1 < d.1) (a : Nat) (b : Byte) :
    (Memory.write m a b).Pairwise fun c d => c.1 < d.1 := by
  have cons {m' : Memory} (hs : m'.Pairwise fun c d => c.1 < d.1) (h : ∀ c ∈ m', a < c.1) :
      (Memory.consCell a b m').Pairwise fun c d => c.1 < d.1 := by
    unfold Memory.consCell
    split
    · exact hs
    · exact List.pairwise_cons.mpr ⟨h, hs⟩
  induction m with
  | nil => exact cons .nil (by simp)
  | cons d rest ih =>
    obtain ⟨k, e⟩ := d
    obtain ⟨hk, hr⟩ := List.pairwise_cons.mp hm
    unfold Memory.write
    split
    · rename_i h
      refine cons hm fun c hc => ?_
      rcases List.mem_cons.mp hc with rfl | hc
      · exact h
      · exact Nat.lt_trans h (hk c hc)
    · split
      · rename_i h; subst h; exact cons hr hk
      · rename_i h1 h2
        refine List.pairwise_cons.mpr ⟨fun c hc => ?_, ih hr⟩
        rcases Memory.mem_write hr hc with ⟨rfl, -⟩ | ⟨hc, -⟩
        · simp only; omega
        · exact hk c hc

/-- A write inside the address space keeps the canonical form. -/
theorem Memory.write_wf {m : Memory} (hm : Memory.wf m) {a : Nat} (b : Byte) (ha : a < Config.memSize) :
    Memory.wf (Memory.write m a b) := by
  refine ⟨Memory.write_sorted hm.1 a b, fun c hc => ?_⟩
  rcases Memory.mem_write hm.1 hc with ⟨rfl, hb⟩ | ⟨hc, -⟩
  · exact ⟨ha, hb⟩
  · exact hm.2 c hc

/-- The memory of a state just reset has the canonical form. -/
theorem State.reset_mem_wf : Memory.wf State.reset.mem := by
  simp [Memory.wf, State.reset]

/-- What `MemRead` can answer (R62). -/
theorem memRead_cases (a : Nat) (s : State) :
    (a < Config.memSize ∧ memRead a s = .ok (s.byteAt a)) ∨
      (Config.memSize ≤ a ∧ memRead a s = .error (.addressOutOfRange a)) := by
  unfold memRead
  split
  · exact .inl ⟨‹_›, rfl⟩
  · exact .inr ⟨by omega, rfl⟩

/-- What `MemWrite` can answer (R63). -/
theorem memWrite_cases (a : Nat) (b : Byte) (s : State) :
    (a < Config.memSize ∧ memWrite a b s = .ok (s.setMem (Memory.write s.mem a b))) ∨
      (Config.memSize ≤ a ∧ memWrite a b s = .error (.addressOutOfRange a)) := by
  unfold memWrite
  split
  · exact .inl ⟨‹_›, rfl⟩
  · exact .inr ⟨by omega, rfl⟩

end Sys2Proof.Machine
end

