-- ==== Sys2Proof/Laws/Ops.lean ====
section
/-! SUPPORT. For each shared operation of Machine/Ops.lean, Operands.lean and Flags.lean, once, all it can
do: later proofs cite these and do not unfold the operation. -/

namespace Sys2Proof.Machine

/-! ### The call stack (R30, R31) -/

/-- What `push` can answer. -/
theorem push_cases (w : Word) (s : State) :
    (s.stack.length < Config.stackDepth ∧ push w s = .ok (s.setStack (w :: s.stack))) ∨
      (Config.stackDepth ≤ s.stack.length ∧ push w s = .error .stackOverflow) := by
  unfold push
  split
  · exact .inl ⟨‹_›, rfl⟩
  · exact .inr ⟨by omega, rfl⟩

/-- What `pop` can answer. -/
theorem pop_cases (s : State) :
    (∃ w rest, s.stack = w :: rest ∧ pop s = .ok (w, s.setStack rest)) ∨
      (s.stack = [] ∧ pop s = .error .stackUnderflow) := by
  unfold pop
  cases h : s.stack with
  | nil => exact .inr ⟨rfl, rfl⟩
  | cons w rest => exact .inl ⟨w, rest, rfl, rfl⟩

/-! ### Two-byte reads (R64, R122) -/

/-- What `MemRead(a, 2)` can answer: the big-endian word, or the fault of the first byte out of range. -/
theorem memReadWord_cases (a : Nat) (s : State) :
    (a + 1 < Config.memSize ∧
        memReadWord a s = .ok (wordOfBytes (s.byteAt a) (s.byteAt (a + 1)))) ∨
      (a + 1 = Config.memSize ∧ memReadWord a s = .error (.addressOutOfRange (a + 1))) ∨
      (Config.memSize ≤ a ∧ memReadWord a s = .error (.addressOutOfRange a)) := by
  unfold memReadWord
  rcases memRead_cases a s with ⟨h, e⟩ | ⟨h, e⟩
  · rcases memRead_cases (a + 1) s with ⟨h', e'⟩ | ⟨h', e'⟩
    · exact .inl ⟨h', by simp [e, e']⟩
    · exact .inr (.inl ⟨by omega, by simp [e, e']⟩)
  · exact .inr (.inr ⟨h, by simp [e]⟩)

/-! ### Runs of bytes (R75, R258) -/

/-- A run of writes leaves the bytes outside it. -/
theorem Memory.read_writeList_outside {bs : List Byte} {a p : Nat} (h : p < a ∨ a + bs.length ≤ p)
    (m : Memory) : Memory.read (Memory.writeList m a bs) p = Memory.read m p := by
  induction bs generalizing a m with
  | nil => rfl
  | cons b rest ih =>
    simp only [List.length_cons] at h
    rw [Memory.writeList, ih (by omega), Memory.read_write_other m b (by omega)]

/-- A run of writes is read back byte by byte. -/
theorem Memory.read_writeList_inside {m : Memory} (hm : m.Pairwise fun c d => c.1 < d.1)
    {bs : List Byte} (a : Nat) {k : Nat} (h : k < bs.length) :
    Memory.read (Memory.writeList m a bs) (a + k) = bs[k] := by
  induction bs generalizing a m k with
  | nil => simp at h
  | cons b rest ih =>
    cases k with
    | zero =>
      rw [Memory.writeList, Memory.read_writeList_outside (by omega)]
      exact Memory.read_write_same hm a b
    | succ k =>
      have := ih (Memory.write_sorted hm a b) (a + 1) (k := k) (by simpa using h)
      rw [Memory.writeList, show a + (k + 1) = a + 1 + k by omega, this]
      simp

/-- A run of writes inside the address space keeps the canonical form. -/
theorem Memory.writeList_wf {m : Memory} (hm : Memory.wf m) {a : Nat} {bs : List Byte}
    (h : a + bs.length ≤ Config.memSize) : Memory.wf (Memory.writeList m a bs) := by
  induction bs generalizing a m with
  | nil => exact hm
  | cons b rest ih =>
    simp only [List.length_cons] at h
    exact ih (Memory.write_wf hm b (by omega)) (by omega)

/-- A store inside the address space writes every byte. -/
theorem storeBytes_inRange {a : Nat} {bs : List Byte} (h : a + bs.length ≤ Config.memSize) (s : State) :
    storeBytes a bs s = .next (s.setMem (Memory.writeList s.mem a bs)) := by
  induction bs generalizing a s with
  | nil => rfl
  | cons b rest ih =>
    simp only [List.length_cons] at h
    rcases memWrite_cases a b s with ⟨-, e⟩ | ⟨h', -⟩
    · rw [storeBytes, e]
      simp only [ih (show a + 1 + rest.length ≤ Config.memSize by omega)]
      rfl
    · omega

/-- A store that runs past the last address writes the bytes before it, then latches the first address
out of range. -/
theorem storeBytes_faults {a : Nat} {bs : List Byte} (hne : bs ≠ [])
    (h : Config.memSize < a + bs.length) (s : State) :
    storeBytes a bs s = .next ((s.setMem (Memory.writeList s.mem a (bs.take (Config.memSize - a)))).setFault
      (some (.addressOutOfRange (max a Config.memSize)))) := by
  induction bs generalizing a s with
  | nil => exact absurd rfl hne
  | cons b rest ih =>
    simp only [List.length_cons] at h
    rcases memWrite_cases a b s with ⟨h', e⟩ | ⟨h', e⟩
    · rw [storeBytes, e]
      obtain ⟨n, hn⟩ : ∃ n, Config.memSize - a = n + 1 := ⟨Config.memSize - a - 1, by omega⟩
      have hr : rest ≠ [] := by rintro rfl; simp only [List.length_nil] at h; omega
      simp only [ih hr (show Config.memSize < a + 1 + rest.length by omega)]
      rw [hn, show Config.memSize - (a + 1) = n by omega, show max (a + 1) Config.memSize = Config.memSize by omega,
        show max a Config.memSize = Config.memSize by omega]
      rfl
    · rw [storeBytes, e, show Config.memSize - a = 0 by omega, show max a Config.memSize = a by omega]
      rfl

/-! ### Register groups (R195, R196) -/

/-- The registers of a group of bytes, in order. -/
def State.setVs (s : State) : List Nibble → List Byte → State
  | r :: rs, b :: bs => (s.setV r b).setVs rs bs
  | _, _ => s

/-- The bytes of memory from `a` upward. -/
def State.bytesFrom (s : State) (a n : Nat) : List Byte := (List.range' a n).map s.byteAt

/-- Writing a register does not change what memory holds. -/
@[simp] theorem State.bytesFrom_setV (s : State) (r : Nibble) (b : Byte) (a n : Nat) :
    (s.setV r b).bytesFrom a n = s.bytesFrom a n := rfl

/-- A load inside the address space loads every register. -/
theorem loadInto_inRange {a : Nat} {rs : List Nibble} (h : a + rs.length ≤ Config.memSize) (s : State) :
    loadInto a rs s = .next (s.setVs rs (s.bytesFrom a rs.length)) := by
  induction rs generalizing a s with
  | nil => rfl
  | cons r rest ih =>
    simp only [List.length_cons] at h
    rcases memRead_cases a s with ⟨-, e⟩ | ⟨h', -⟩
    · rw [loadInto, e]
      simp only [ih (show a + 1 + rest.length ≤ Config.memSize by omega)]
      rfl
    · omega

/-- A load that runs past the last address loads the registers before it, then latches the first
address out of range. -/
theorem loadInto_faults {a : Nat} {rs : List Nibble} (hne : rs ≠ [])
    (h : Config.memSize < a + rs.length) (s : State) :
    loadInto a rs s = .next ((s.setVs (rs.take (Config.memSize - a))
      (s.bytesFrom a (Config.memSize - a))).setFault (some (.addressOutOfRange (max a Config.memSize)))) := by
  induction rs generalizing a s with
  | nil => exact absurd rfl hne
  | cons r rest ih =>
    simp only [List.length_cons] at h
    rcases memRead_cases a s with ⟨h', e⟩ | ⟨h', e⟩
    · rw [loadInto, e]
      obtain ⟨n, hn⟩ : ∃ n, Config.memSize - a = n + 1 := ⟨Config.memSize - a - 1, by omega⟩
      have hr : rest ≠ [] := by rintro rfl; simp only [List.length_nil] at h; omega
      simp only [ih hr (show Config.memSize < a + 1 + rest.length by omega)]
      rw [hn, show Config.memSize - (a + 1) = n by omega, show max (a + 1) Config.memSize = Config.memSize by omega,
        show max a Config.memSize = Config.memSize by omega]
      rfl
    · rw [loadInto, e, show Config.memSize - a = 0 by omega, show max a Config.memSize = a by omega]
      cases rest <;> rfl

/-- A group write changes only the register file. -/
theorem State.setVs_eq (s : State) (rs : List Nibble) (bs : List Byte) :
    s.setVs rs bs = { s with v := (s.setVs rs bs).v } := by
  induction rs generalizing s bs with
  | nil => rfl
  | cons r rest ih =>
    cases bs with
    | nil => rfl
    | cons b bs =>
      rw [State.setVs, ih]
      rfl

/-- A group write leaves the registers outside the group. -/
theorem State.readV_setVs_outside {rs : List Nibble} {y : Nibble} (h : y ∉ rs) (s : State)
    (bs : List Byte) : (s.setVs rs bs).readV y = s.readV y := by
  induction rs generalizing s bs with
  | nil => rfl
  | cons r rest ih =>
    cases bs with
    | nil => rfl
    | cons b bs =>
      simp only [List.mem_cons, not_or] at h
      rw [State.setVs, ih h.2, State.readV_setV_ne s b h.1]

/-- A group write without repeats is read back register by register. -/
theorem State.readV_setVs_inside {rs : List Nibble} (hd : rs.Nodup) (s : State) {bs : List Byte}
    {k : Nat} (hk : k < rs.length) (hb : k < bs.length) : (s.setVs rs bs).readV rs[k] = bs[k] := by
  induction rs generalizing s bs k with
  | nil => simp at hk
  | cons r rest ih =>
    cases bs with
    | nil => simp at hb
    | cons b bs =>
      obtain ⟨hr, hd⟩ := List.nodup_cons.mp hd
      cases k with
      | zero => simp [State.setVs, State.readV_setVs_outside hr]
      | succ k =>
        simpa [State.setVs] using ih hd (s.setV r b) (k := k) (by simpa using hk) (by simpa using hb)

/-- The group V0..Vx has `x + 1` registers. -/
@[simp] theorem regGroup_length (x : Nibble) : (regGroup x).length = x.toNat + 1 := by
  have := x.isLt
  simp [regGroup, allRegs]; omega

/-- Its `k`-th register is `Vk`. -/
theorem regGroup_get (x : Nibble) {k : Nat} (h : k < (regGroup x).length) :
    (regGroup x)[k] = BitVec.ofNat 4 k := by
  have hk : k < 16 := by have := x.isLt; simp at h; omega
  simp only [regGroup, List.getElem_take]
  interval_cases k <;> rfl

/-- No register stands in it twice. -/
theorem regGroup_nodup (x : Nibble) : (regGroup x).Nodup :=
  List.Sublist.nodup (List.take_sublist _ _) (by decide)

/-- A register is in the group exactly when its index is at most `x`. -/
theorem mem_regGroup {x y : Nibble} : y ∈ regGroup x ↔ y.toNat ≤ x.toNat := by
  revert x y; decide

/-- A number has three decimal digits. -/
@[simp] theorem bcdDigits_length (v : Byte) : (bcdDigits v).length = 3 := rfl

/-! ### Result and flag (R164) -/

/-- VF ends as the flag, whatever `x` is. -/
@[simp] theorem readV_writeResultFlag_vf (x : Nibble) (r : Byte) (f : Bool) (s : State) :
    (writeResultFlag x r f s).readV regVF = flagByte f := by simp [writeResultFlag]

/-- The result stands in `V[x]` unless `x` is VF. -/
theorem readV_writeResultFlag_dest {x : Nibble} (h : x ≠ regVF) (r : Byte) (f : Bool) (s : State) :
    (writeResultFlag x r f s).readV x = r := by
  rw [writeResultFlag, State.readV_setV_ne _ _ h, State.readV_setV_same]

/-- Every other register keeps its value. -/
theorem readV_writeResultFlag_other {x y : Nibble} (h : y ≠ x) (h' : y ≠ regVF) (r : Byte) (f : Bool)
    (s : State) : (writeResultFlag x r f s).readV y = s.readV y := by
  rw [writeResultFlag, State.readV_setV_ne _ _ h', State.readV_setV_ne _ _ h]

/-- It changes the register file only. -/
theorem writeResultFlag_eq (x : Nibble) (r : Byte) (f : Bool) (s : State) :
    writeResultFlag x r f s = { s with v := (writeResultFlag x r f s).v } := rfl

/-! ### The skip primitive (R147) -/

/-- A skip changes PC only. -/
theorem skipIf_eq (c : Bool) (s : State) :
    skipIf c s = s.setPc (if c then s.pc + 2 else s.pc) := by
  cases c <;> rfl

/-! ### The random draw (R173) -/

/-- With an injected byte left, that byte is the answer. -/
theorem randomByte_injected {s : State} {b : Byte} {rest : List Byte} (h : s.supply = b :: rest) :
    randomByte s = b := by simp [randomByte, h]

end Sys2Proof.Machine
end

