-- ==== Sys2Proof/Laws/Display.lean ====
section
/-! SUPPORT. The laws of the display controller (44_display.md rules R211, R212, R216): every pixel after
a blit, and when a blit reports an erasure. -/

namespace Sys2Proof.Machine

/-- A pixel off the grid is off. -/
theorem pixelAt_offGrid (d : Display) {x y : Nat} (h : ¬(x < 64 ∧ y < 32)) : pixelAt d x y = false := by
  simp [pixelAt, h]

/-- Every pixel of the blank display is off. -/
@[simp] theorem pixelAt_blank (x y : Nat) : pixelAt blankDisplay x y = false := by
  unfold pixelAt
  split <;> simp

/-- What `set_pixel` reports (R211): an erasure exactly when the pixel was set and the bit is 1. -/
theorem setPixel_erased (px py : Nat) (on : Bool) (d : Display) :
    (setPixel px py on d).2 = (pixelAt d px py && on) := by
  unfold setPixel pixelAt
  split <;> simp

/-- Every pixel after `set_pixel` (R211): the named one toggled by the bit if it is on the grid, every
other as before. -/
theorem pixelAt_setPixel (px py : Nat) (on : Bool) (d : Display) (x y : Nat) :
    pixelAt (setPixel px py on d).1 x y =
      (pixelAt d x y ^^ (on && decide (x = px ∧ y = py ∧ x < 64 ∧ y < 32))) := by
  by_cases hxy : x < 64 ∧ y < 32
  · by_cases hp : px < 64 ∧ py < 32
    · simp only [setPixel, hp, and_self, dite_true, pixelAt, hxy]
      by_cases hy : y = py
      · subst hy
        by_cases hx : x = px
        · subst hx; simp
        · simp [hx, Ne.symm hx]
      · simp [hy, Ne.symm hy]
    · have : ¬(x = px ∧ y = py ∧ x < 64 ∧ y < 32) := by rintro ⟨rfl, rfl, h⟩; exact hp h
      simp [setPixel, hp, this]
  · have : ¬(x = px ∧ y = py ∧ x < 64 ∧ y < 32) := fun h => hxy h.2.2
    simp [pixelAt_offGrid _ hxy, this]

/-- Every pixel after a run of pixels of one row. -/
theorem pixelAt_drawCols (px py : Nat) (bs : List Bool) (d : Display) (c : Bool) (x y : Nat) :
    pixelAt (drawCols px py bs d c).1 x y =
      (pixelAt d x y ^^ (bs.getD (x - px) false && decide (px ≤ x ∧ y = py ∧ x < 64 ∧ y < 32))) := by
  induction bs generalizing px d c with
  | nil => simp [drawCols]
  | cons on rest ih =>
    rw [drawCols, ih, pixelAt_setPixel, Bool.xor_assoc]
    congr 1
    by_cases hx : x = px
    · subst hx; simp
    · by_cases hle : px ≤ x
      · obtain ⟨k, rfl⟩ : ∃ k, x = px + 1 + k := ⟨x - px - 1, by omega⟩
        simp [hx, show px + 1 + k - px = k + 1 by omega, show px + 1 ≤ px + 1 + k by omega,
          show px ≤ px + 1 + k by omega]
      · simp [hx, hle, show ¬(px + 1 ≤ x) by omega]

/-- When a run of pixels of one row reports an erasure: some bit that is 1 meets a pixel that was set. -/
theorem drawCols_collided (px py : Nat) (bs : List Bool) (d : Display) (c : Bool) :
    (drawCols px py bs d c).2 = true ↔
      c = true ∨ ∃ j, bs.getD j false = true ∧ pixelAt d (px + j) py = true := by
  induction bs generalizing px d c with
  | nil => simp [drawCols]
  | cons on rest ih =>
    rw [drawCols, ih, setPixel_erased]
    have old (j : Nat) : pixelAt (setPixel px py on d).1 (px + 1 + j) py = pixelAt d (px + 1 + j) py := by
      rw [pixelAt_setPixel]; simp [show px + 1 + j ≠ px by omega]
    simp only [old, Bool.or_eq_true, Bool.and_eq_true, or_assoc]
    refine or_congr_right ⟨?_, ?_⟩
    · rintro (⟨h, rfl⟩ | ⟨j, hj, hp⟩)
      · exact ⟨0, rfl, by simpa using h⟩
      · exact ⟨j + 1, by simpa using hj, by rwa [show px + (j + 1) = px + 1 + j by omega]⟩
    · rintro ⟨j, hj, hp⟩
      cases j with
      | zero => exact .inl ⟨by simpa using hp, by simpa using hj⟩
      | succ j => exact .inr ⟨j, by simpa using hj, by rwa [show px + 1 + j = px + (j + 1) by omega]⟩

/-- The `j`-th bit of a sprite row is bit `7 - j` of its byte (R212). -/
theorem spriteBits_getD (b : Byte) (j : Nat) :
    (spriteBits b).getD j false = (decide (j < 8) && b.getLsbD (7 - j)) := by
  by_cases h : j < 8
  · interval_cases j <;> simp [spriteBits]
  · simp [h, List.getD_eq_getElem?_getD, List.getElem?_eq_none (show (spriteBits b).length ≤ j by
      simp [spriteBits]; omega)]

/-- Every pixel after `draw_sprite` (R212). -/
theorem pixelAt_drawSprite (x0 y0 : Nat) (b : Byte) (d : Display) (x y : Nat) :
    pixelAt (drawSprite x0 y0 b d).1 x y =
      (pixelAt d x y ^^
        (decide (x0 ≤ x ∧ x - x0 < 8 ∧ y = y0 ∧ x < 64 ∧ y < 32) && b.getLsbD (7 - (x - x0)))) := by
  rw [drawSprite, pixelAt_drawCols, spriteBits_getD]
  congr 1
  by_cases h : x - x0 < 8 <;> simp [h, Bool.and_comm]

/-- When `draw_sprite` reports a collision (R212). -/
theorem drawSprite_collided (x0 y0 : Nat) (b : Byte) (d : Display) :
    (drawSprite x0 y0 b d).2 = true ↔
      ∃ j, j < 8 ∧ b.getLsbD (7 - j) = true ∧ pixelAt d (x0 + j) y0 = true := by
  rw [drawSprite, drawCols_collided]
  simp only [spriteBits_getD, Bool.and_eq_true, decide_eq_true_eq, and_assoc, Bool.false_eq_true,
    false_or]

/-- What the row loop of DRW does once (R216): one row read and drawn, or the fault of its address. -/
theorem drawRows_succ (x0 rows y0 a : Nat) (c : Bool) (s : State) :
    (a < Config.memSize ∧ drawRows x0 (rows + 1) y0 a c s =
        drawRows x0 rows (y0 + 1) (a + 1) (c || (drawSprite x0 y0 (s.byteAt a) s.pix).2)
          (s.setPix (drawSprite x0 y0 (s.byteAt a) s.pix).1)) ∨
      (Config.memSize ≤ a ∧ drawRows x0 (rows + 1) y0 a c s = raise (.addressOutOfRange a) s) := by
  rcases memRead_cases a s with ⟨h, e⟩ | ⟨h, e⟩
  · exact .inl ⟨h, by rw [drawRows, e]⟩
  · exact .inr ⟨h, by rw [drawRows, e]⟩

/-- A draw changes the pixels, VF, DrawRequired and the fault latch only. -/
theorem drawRows_frame (x0 rows y0 a : Nat) (c : Bool) (s : State) :
    ∃ d v r f, drawRows x0 rows y0 a c s = .next { s with pix := d, v := v, drawReq := r, fault := f } := by
  induction rows generalizing y0 a c s with
  | zero => exact ⟨s.pix, _, true, s.fault, rfl⟩
  | succ n ih =>
    rcases drawRows_succ x0 n y0 a c s with ⟨-, e⟩ | ⟨-, e⟩
    · obtain ⟨d, v, r, f, h⟩ := ih (y0 + 1) (a + 1) (c || (drawSprite x0 y0 (s.byteAt a) s.pix).2)
        (s.setPix (drawSprite x0 y0 (s.byteAt a) s.pix).1)
      exact ⟨d, v, r, f, by rw [e, h]; rfl⟩
    · exact ⟨s.pix, s.v, s.drawReq, _, by rw [e]; rfl⟩

/-- The port reads the pixel (R41). -/
theorem getPixel_eq (s : State) (x : BitVec 6) (y : BitVec 5) :
    getPixel s x y = pixelAt s.pix x.toNat y.toNat := rfl

end Sys2Proof.Machine
end

