-- ==== Sys2Proof/Laws/Encoding.lean ====
section
/-! SUPPORT. Words and fields (30_encoding.md rules R91, R92, R95): the value of each field, each field of a
word put together from its format, and what the three masks of the opcode map keep. -/

namespace Sys2Proof

/-! ### Values -/

/-- Concatenation puts its first operand in the high bits (R7). -/
theorem toNat_concat {m n : Nat} (a : BitVec m) (b : BitVec n) :
    (a ++ b).toNat = a.toNat * 2 ^ n + b.toNat := by
  rw [BitVec.toNat_append, ← Nat.shiftLeft_add_eq_or_of_lt b.isLt, Nat.shiftLeft_eq]

theorem wordOfBytes_toNat (hi lo : Byte) : (wordOfBytes hi lo).toNat = hi.toNat * 256 + lo.toNat :=
  toNat_concat hi lo

theorem formatNNN_toNat (f : Nibble) (nnn : Addr12) :
    (formatNNN f nnn).toNat = f.toNat * 4096 + nnn.toNat := toNat_concat f nnn

theorem formatXKK_toNat (f x : Nibble) (kk : Byte) :
    (formatXKK f x kk).toNat = f.toNat * 4096 + (x.toNat * 256 + kk.toNat) :=
  (toNat_concat f (x ++ kk)).trans (congrArg _ (toNat_concat x kk))

theorem formatXYN_toNat (f x y n : Nibble) :
    (formatXYN f x y n).toNat = f.toNat * 4096 + (x.toNat * 256 + (y.toNat * 16 + n.toNat)) :=
  (toNat_concat f (x ++ (y ++ n))).trans (congrArg _ ((toNat_concat x (y ++ n)).trans
    (congrArg _ (toNat_concat y n))))

theorem formatRet_toNat (ignored : BitVec 8) : (formatRet ignored).toNat = ignored.toNat * 16 + 14 :=
  (toNat_concat 0x0#4 (ignored ++ 0xE#4)).trans (by rw [toNat_concat]; simp)

theorem slice_toNat (op : Word) (lo len : Nat) :
    (op.extractLsb' lo len).toNat = op.toNat / 2 ^ lo % 2 ^ len := by
  rw [BitVec.extractLsb'_toNat, Nat.shiftRight_eq_div_pow]

theorem opFamily_toNat (op : Word) : (opFamily op).toNat = op.toNat / 4096 % 16 := slice_toNat op 12 4
theorem opX_toNat (op : Word) : (opX op).toNat = op.toNat / 256 % 16 := slice_toNat op 8 4
theorem opY_toNat (op : Word) : (opY op).toNat = op.toNat / 16 % 16 := slice_toNat op 4 4
theorem opN_toNat (op : Word) : (opN op).toNat = op.toNat % 16 :=
  (slice_toNat op 0 4).trans (by simp)
theorem opKK_toNat (op : Word) : (opKK op).toNat = op.toNat % 256 :=
  (slice_toNat op 0 8).trans (by simp)
theorem opNNN_toNat (op : Word) : (opNNN op).toNat = op.toNat % 4096 :=
  (slice_toNat op 0 12).trans (by simp)
theorem opMid_toNat (op : Word) : (opMid op).toNat = op.toNat / 16 % 256 := slice_toNat op 4 8

/-! ### Fields of a format -/

@[simp] theorem opFamily_formatNNN (f : Nibble) (nnn : Addr12) : opFamily (formatNNN f nnn) = f := by
  apply BitVec.eq_of_toNat_eq
  have := f.isLt
  have := nnn.isLt
  rw [opFamily_toNat, formatNNN_toNat]
  omega

@[simp] theorem opNNN_formatNNN (f : Nibble) (nnn : Addr12) : opNNN (formatNNN f nnn) = nnn := by
  apply BitVec.eq_of_toNat_eq
  have := f.isLt
  have := nnn.isLt
  rw [opNNN_toNat, formatNNN_toNat]
  omega

@[simp] theorem opFamily_formatXKK (f x : Nibble) (kk : Byte) : opFamily (formatXKK f x kk) = f := by
  apply BitVec.eq_of_toNat_eq
  have := f.isLt
  have := x.isLt
  have := kk.isLt
  rw [opFamily_toNat, formatXKK_toNat]
  omega

@[simp] theorem opX_formatXKK (f x : Nibble) (kk : Byte) : opX (formatXKK f x kk) = x := by
  apply BitVec.eq_of_toNat_eq
  have := f.isLt
  have := x.isLt
  have := kk.isLt
  rw [opX_toNat, formatXKK_toNat]
  omega

@[simp] theorem opKK_formatXKK (f x : Nibble) (kk : Byte) : opKK (formatXKK f x kk) = kk := by
  apply BitVec.eq_of_toNat_eq
  have := f.isLt
  have := x.isLt
  have := kk.isLt
  rw [opKK_toNat, formatXKK_toNat]
  omega

@[simp] theorem opFamily_formatXYN (f x y n : Nibble) : opFamily (formatXYN f x y n) = f := by
  apply BitVec.eq_of_toNat_eq
  have := f.isLt
  have := x.isLt
  have := y.isLt
  have := n.isLt
  rw [opFamily_toNat, formatXYN_toNat]
  omega

@[simp] theorem opX_formatXYN (f x y n : Nibble) : opX (formatXYN f x y n) = x := by
  apply BitVec.eq_of_toNat_eq
  have := f.isLt
  have := x.isLt
  have := y.isLt
  have := n.isLt
  rw [opX_toNat, formatXYN_toNat]
  omega

@[simp] theorem opY_formatXYN (f x y n : Nibble) : opY (formatXYN f x y n) = y := by
  apply BitVec.eq_of_toNat_eq
  have := f.isLt
  have := x.isLt
  have := y.isLt
  have := n.isLt
  rw [opY_toNat, formatXYN_toNat]
  omega

@[simp] theorem opN_formatXYN (f x y n : Nibble) : opN (formatXYN f x y n) = n := by
  apply BitVec.eq_of_toNat_eq
  have := f.isLt
  have := x.isLt
  have := y.isLt
  have := n.isLt
  rw [opN_toNat, formatXYN_toNat]
  omega

@[simp] theorem opMid_formatRet (ignored : BitVec 8) : opMid (formatRet ignored) = ignored := by
  apply BitVec.eq_of_toNat_eq
  have := ignored.isLt
  rw [opMid_toNat, formatRet_toNat]
  omega

@[simp] theorem opFamily_formatRet (ignored : BitVec 8) : opFamily (formatRet ignored) = 0x0 := by
  apply BitVec.eq_of_toNat_eq
  have := ignored.isLt
  rw [opFamily_toNat, formatRet_toNat]
  simp; omega

@[simp] theorem opN_formatRet (ignored : BitVec 8) : opN (formatRet ignored) = 0xE := by
  apply BitVec.eq_of_toNat_eq
  have := ignored.isLt
  rw [opN_toNat, formatRet_toNat]
  simp

/-! ### A word from its fields -/

theorem formatNNN_fields (op : Word) : formatNNN (opFamily op) (opNNN op) = op := by
  apply BitVec.eq_of_toNat_eq
  have := op.isLt
  rw [formatNNN_toNat, opFamily_toNat, opNNN_toNat]
  omega

theorem formatXKK_fields (op : Word) : formatXKK (opFamily op) (opX op) (opKK op) = op := by
  apply BitVec.eq_of_toNat_eq
  have := op.isLt
  rw [formatXKK_toNat, opFamily_toNat, opX_toNat, opKK_toNat]
  omega

theorem formatXYN_fields (op : Word) : formatXYN (opFamily op) (opX op) (opY op) (opN op) = op := by
  apply BitVec.eq_of_toNat_eq
  have := op.isLt
  rw [formatXYN_toNat, opFamily_toNat, opX_toNat, opY_toNat, opN_toNat]
  omega

/-- The bytes of a word, high byte first, join to the word (R66). -/
theorem wordOfBytes_bytesOfWord (w : Word) : wordOfBytes (bytesOfWord w).1 (bytesOfWord w).2 = w := by
  apply BitVec.eq_of_toNat_eq
  have := w.isLt
  rw [wordOfBytes_toNat, bytesOfWord, slice_toNat, slice_toNat]
  simp only [Nat.pow_zero, Nat.div_one]
  omega

/-! ### The masks of the opcode map (R95) -/

theorem formatNNN_getLsbD (f : Nibble) (nnn : Addr12) (i : Nat) :
    (formatNNN f nnn).getLsbD i = if i < 12 then nnn.getLsbD i else f.getLsbD (i - 12) :=
  BitVec.getLsbD_append

theorem formatXKK_eq (f x : Nibble) (kk : Byte) : formatXKK f x kk = formatNNN f (x ++ kk) := rfl

theorem formatXYN_eq (f x y n : Nibble) : formatXYN f x y n = formatXKK f x (y ++ n) := rfl

/-- The mask 0xF000 keeps the family. -/
theorem and_F000 (op : Word) : op &&& 0xF000#16 = formatNNN (opFamily op) 0 := by
  apply BitVec.eq_of_getLsbD_eq
  intro i hi
  rw [formatNNN_getLsbD]
  interval_cases i <;> simp [opFamily]

/-- The mask 0xF0FF keeps the family and the low byte. -/
theorem and_F0FF (op : Word) : op &&& 0xF0FF#16 = formatXKK (opFamily op) 0 (opKK op) := by
  apply BitVec.eq_of_getLsbD_eq
  intro i hi
  rw [formatXKK_eq, formatNNN_getLsbD, BitVec.getLsbD_append]
  interval_cases i <;> simp [opFamily, opKK]

/-- The mask 0xF00F keeps the family and the low nibble. -/
theorem and_F00F (op : Word) : op &&& 0xF00F#16 = formatXYN (opFamily op) 0 0 (opN op) := by
  apply BitVec.eq_of_getLsbD_eq
  intro i hi
  rw [formatXYN_eq, formatXKK_eq, formatNNN_getLsbD, BitVec.getLsbD_append, BitVec.getLsbD_append]
  interval_cases i <;> simp [opFamily, opN]

end Sys2Proof
end

