-- ==== Sys2Proof/Laws/Step.lean ====
section
/-! SUPPORT. What a step can do, once: the settling of an outcome (60_exceptions.md rule R256), the event a
step takes, the ways a tick can go (40_tick_fetch_decode.md rules R120 to R124), the halted state (R257). -/

namespace Sys2Proof.Machine

/-- A settled outcome is a next state exactly when the outcome was that state with the latch clear. -/
theorem settle_eq_next {o : Outcome} {t : State} :
    settle o = .next t ↔ o = .next t ∧ t.fault = none := by
  cases o with
  | next u =>
    cases h : u.fault with
    | none =>
      simp only [settle, h, Host.Outcome.next.injEq]
      exact ⟨fun e => ⟨e, e ▸ h⟩, fun e => e.1⟩
    | some c =>
      simp only [settle, h, Host.Outcome.next.injEq, reduceCtorEq, false_iff]
      rintro ⟨rfl, h'⟩
      simp [h'] at h
  | fault r => simp [settle]
  | refused r => simp [settle]

/-- A settled next state with the latch clear. -/
theorem settle_next_live {t : State} (h : t.fault = none) : settle (.next t) = .next t := by
  simp [settle, h]

/-- A settled next state with the latch set. -/
theorem settle_next_halted {t : State} {c : FaultCause} (h : t.fault = some c) :
    settle (.next t) = .fault (.halted c t) := by
  simp [settle, h]

/-- With no event scheduled, a step is a tick (log 1). -/
theorem runNext_idle {s : State} (h : s.schedule = []) : runNext s = runEvent .tick s := by
  simp [runNext, h]

/-- With an event scheduled, a step is that event, taken off the schedule. -/
theorem runNext_event {s : State} {e : Event} {rest : List Event} (h : s.schedule = e :: rest) :
    runNext s = runEvent e (s.setSchedule rest) := by
  simp [runNext, h]

/-- An event of a machine that is not halted. -/
theorem runEvent_live {s : State} (h : s.fault = none) (e : Event) : runEvent e s = runLive e s := by
  simp [runEvent, h]

/-- An event of a halted machine. -/
theorem runEvent_halted {s : State} {c : FaultCause} (h : s.fault = some c) (e : Event) :
    runEvent e s = runHalted e s := by
  simp [runEvent, h]

/-- The ways a tick of a live machine can go (R120 to R124, R127). -/
theorem tickLive_cases (s : State) :
    (s.waiting = true ∧ tickLive s = .next (s.setDrawReq false)) ∨
    (s.waiting = false ∧ s.pc.toNat + 1 < Config.memSize ∧
      tickLive s = execute (wordOfBytes (s.byteAt s.pc.toNat) (s.byteAt (s.pc.toNat + 1)))
        (advancePc (s.setDrawReq false))) ∨
    (s.waiting = false ∧ s.pc.toNat + 1 = Config.memSize ∧
      tickLive s = raise (.addressOutOfRange (s.pc.toNat + 1)) (s.setDrawReq false)) ∨
    (s.waiting = false ∧ Config.memSize ≤ s.pc.toNat ∧
      tickLive s = raise (.addressOutOfRange s.pc.toNat) (s.setDrawReq false)) := by
  unfold tickLive
  cases hw : s.waiting with
  | true => exact .inl ⟨rfl, rfl⟩
  | false =>
    refine .inr ?_
    simp only [Bool.false_eq_true, if_false, true_and, fetchExecute, State.setDrawReq_pc]
    rcases memReadWord_cases s.pc.toNat (s.setDrawReq false) with ⟨h, e⟩ | ⟨h, e⟩ | ⟨h, e⟩
    · exact .inl ⟨h, by simp [e]⟩
    · exact .inr (.inl ⟨h, by simp [e]⟩)
    · exact .inr (.inr ⟨h, by simp [e]⟩)

/-- What executing a word can be (R123, R124). -/
theorem execute_cases (op : Word) (s : State) :
    (∃ i, decode op = .ok i ∧ execute op s = exec i s) ∨
      (∃ e, decode op = .error e ∧ execute op s = raise (.unrecognizedOpcode op) s) := by
  unfold execute
  cases h : decode op with
  | ok i => exact .inl ⟨i, rfl, rfl⟩
  | error e => exact .inr ⟨e, rfl, rfl⟩

end Sys2Proof.Machine
end

