-- ==== Sys2Proof/Laws/Exec.lean ====
section
/-! SUPPORT. What the multi-byte operations, an instruction and a step can do, each said once: the outcome, the
fault latched (60_exceptions.md rules R250, R256, R258), the elements written (10_state.md rule R47). -/

namespace Sys2Proof.Machine

/-- A run of stores, in range or not: the bytes inside the address space are written, then the first address
out of range is latched, and nothing else changes (R75, R258). -/
theorem storeBytes_next (a : Nat) (bs : List Byte) (s : State) :
   storeBytes a bs s = .next { s with mem := Memory.writeList s.mem a (bs.take (Config.memSize - a)), fault := (firstOutOfRange a bs.length).or s.fault } := by
  by_cases hne : bs = []
  · subst hne; simp [storeBytes, firstOutOfRange, Memory.writeList]
  · have : 0 < bs.length := List.length_pos_iff.mpr hne
    by_cases h : a + bs.length ≤ Config.memSize
    · rw [storeBytes_inRange h, List.take_of_length_le (by omega)]
      simp only [firstOutOfRange, if_neg (show ¬(0 < bs.length ∧ Config.memSize < a + bs.length) by omega)]; rfl
    · rw [storeBytes_faults hne (by omega)]
      simp only [firstOutOfRange, if_pos (show (0 < bs.length ∧ Config.memSize < a + bs.length) by omega)]; rfl

/-- A run of loads, in range or not: only registers of the group change, and the first address out of range is
latched (R75, R258). -/
theorem loadInto_next (a : Nat) (rs : List Nibble) (s : State) :
   ∃ v, loadInto a rs s = .next { s with v := v, fault := (firstOutOfRange a rs.length).or s.fault } ∧ ∀ r, r ∉ rs → State.readV {s with v := v} r = s.readV r := by
  by_cases hne : rs = []
  · subst hne; exact ⟨s.v, by simp [loadInto, firstOutOfRange], fun _ _ => rfl⟩
  · have : 0 < rs.length := List.length_pos_iff.mpr hne
    by_cases h : a + rs.length ≤ Config.memSize
    · refine ⟨(s.setVs rs (s.bytesFrom a rs.length)).v, ?_, ?_⟩
      · rw [loadInto_inRange h, State.setVs_eq]
        simp only [firstOutOfRange, if_neg (show ¬(0 < rs.length ∧ Config.memSize < a + rs.length) by omega)]; rfl
      · intro r hr; rw [← State.setVs_eq]; exact State.readV_setVs_outside hr _ _
    · refine ⟨(s.setVs (rs.take (Config.memSize - a)) (s.bytesFrom a (Config.memSize - a))).v, ?_, ?_⟩
      · rw [loadInto_faults hne (by omega), State.setVs_eq]
        simp only [firstOutOfRange, if_pos (show (0 < rs.length ∧ Config.memSize < a + rs.length) by omega)]; rfl
      · intro r hr; rw [← State.setVs_eq]; exact State.readV_setVs_outside (fun h => hr (List.mem_of_mem_take h)) _ _

/-- The row loop of DRW, in range or not: pixels, and, unless it raised, VF and DrawRequired (R216, R258). -/
theorem drawRows_next (x0 rows y0 a : Nat) (c : Bool) (s : State) :
    ∃ d b q, drawRows x0 rows y0 a c s = .next { s with pix := d, v := (if (firstOutOfRange a rows).isSome then s.v else s.v.set 15 (flagByte b)), drawReq := q, fault := (firstOutOfRange a rows).or s.fault } := by
  induction rows generalizing y0 a c s with
  | zero => exact ⟨s.pix, c, true, by simp [firstOutOfRange]; rfl⟩
  | succ n ih =>
    rcases drawRows_succ x0 n y0 a c s with ⟨h, e⟩ | ⟨h, e⟩
    · obtain ⟨d, b, q, h2⟩ := ih (y0 + 1) (a + 1) (c || (drawSprite x0 y0 (s.byteAt a) s.pix).2)
        (s.setPix (drawSprite x0 y0 (s.byteAt a) s.pix).1)
      refine ⟨d, b, q, ?_⟩
      rw [e, h2]
      have : firstOutOfRange (a+1) n = firstOutOfRange a (n+1) := by
        unfold firstOutOfRange
        simp only [memSize_eq] at *
        by_cases h3 : 4096 < a + (n + 1)
        · rw [if_pos (by omega), if_pos (by omega)]; congr 2; omega
        · rw [if_neg (by omega), if_neg (by omega)]
      rw [this]; rfl
    · refine ⟨s.pix, c, s.drawReq, ?_⟩
      rw [e]
      have : firstOutOfRange a (n+1) = some (.addressOutOfRange a) := by
        unfold firstOutOfRange
        simp only [memSize_eq] at *
        rw [if_pos (by omega)]; congr 2; omega
      rw [this]; rfl
/-- The row loop of DRW inside the address space: the pixels under the sprite are toggled, and the collision
is that of some pixel that was set under a 1 bit (R212, R216). -/
theorem drawRows_inRange (x0 : Nat) (rows y0 : Nat) (k : Nat) (c : Bool) (s : State) (hr : rows = 0 ∨ effAddr s k + rows ≤ 4096) :
    ∃ d col, drawRows x0 rows y0 (effAddr s k) c s = .next (((s.setPix d).setV regVF (flagByte col)).setDrawReq true) ∧
      (∀ px py, pixelAt d px py = (pixelAt s.pix px py ^^
        (decide (x0 ≤ px ∧ px - x0 < 8 ∧ y0 ≤ py ∧ py - y0 < rows ∧ px < 64 ∧ py < 32) &&
          (s.byteAt (effAddr s (k + (py - y0)))).getLsbD (7 - (px - x0))))) ∧
      (col = true ↔ c = true ∨ ∃ px py, pixelAt s.pix px py = true ∧
        (decide (x0 ≤ px ∧ px - x0 < 8 ∧ y0 ≤ py ∧ py - y0 < rows ∧ px < 64 ∧ py < 32) &&
          (s.byteAt (effAddr s (k + (py - y0)))).getLsbD (7 - (px - x0))) = true) := by
  induction rows generalizing y0 k c s with
  | zero => exact ⟨s.pix, c, rfl, by simp, by simp⟩
  | succ n ih =>
    rcases drawRows_succ x0 n y0 (effAddr s k) c s with ⟨h, e⟩ | ⟨h, -⟩
    · obtain ⟨d, col, e2, hp, hc⟩ := ih (y0 + 1) (k + 1) (c || (drawSprite x0 y0 (s.byteAt (effAddr s k)) s.pix).2)
        (s.setPix (drawSprite x0 y0 (s.byteAt (effAddr s k)) s.pix).1) (by simp [effAddr] at hr ⊢; omega)
      refine ⟨d, col, e.trans e2, ?_, ?_⟩
      · intro px py
        rw [hp]
        simp only [State.setPix_pix, pixelAt_drawSprite, Bool.xor_assoc]
        congr 1
        simp only [State.setPix_byteAt, effAddr, State.setPix_i]
        by_cases hy : py = y0
        · subst hy; simp
        · rw [show (decide (x0 ≤ px ∧ px - x0 < 8 ∧ py = y0 ∧ px < 64 ∧ py < 32)) = false by simp [hy]]
          by_cases hle : y0 ≤ py
          · obtain ⟨j, rfl⟩ : ∃ j, py = y0 + 1 + j := ⟨py - y0 - 1, by omega⟩
            simp [show y0 + 1 + j - y0 = j + 1 by omega, show y0 ≤ y0 + 1 + j by omega, show k + 1 + j = k + (j + 1) by omega]
          · simp [hle, show ¬ (y0 + 1 ≤ py) by omega]
      · rw [hc]
        simp only [Bool.or_eq_true, or_assoc, drawSprite_collided]
        refine or_congr_right ⟨?_, ?_⟩
        · rintro (⟨j, hj, hb, hpx⟩ | ⟨px, py, h1, h2⟩)
          · refine ⟨x0 + j, y0, hpx, ?_⟩
            have : x0 + j < 64 ∧ y0 < 32 := by
              by_contra hcon; rw [pixelAt_offGrid _ hcon] at hpx; cases hpx
            simp [hj, hb, this]
          · simp only [Bool.and_eq_true, decide_eq_true_eq] at h2
            obtain ⟨⟨a1, a2, a3, a4, a5, a6⟩, hb⟩ := h2
            have hne : py ≠ y0 := by omega
            simp only [State.setPix_pix, pixelAt_drawSprite, hne] at h1
            refine ⟨px, py, by simpa using h1, ?_⟩
            simp only [Bool.and_eq_true, decide_eq_true_eq]
            refine ⟨⟨a1, a2, by omega, by omega, a5, a6⟩, ?_⟩
            rw [show k + (py - y0) = k + 1 + (py - (y0 + 1)) by omega]; exact hb
        · rintro ⟨px, py, h1, h2⟩
          simp only [Bool.and_eq_true, decide_eq_true_eq] at h2
          obtain ⟨⟨a1, a2, a3, a4, a5, a6⟩, hb⟩ := h2
          by_cases hy : py = y0
          · subst hy
            refine .inl ⟨px - x0, a2, ?_, by rwa [show x0 + (px - x0) = px by omega]⟩
            simpa using hb
          · refine .inr ⟨px, py, ?_, ?_⟩
            · simp only [State.setPix_pix, pixelAt_drawSprite, hy]; simpa using h1
            · simp only [Bool.and_eq_true, decide_eq_true_eq]
              refine ⟨⟨a1, a2, by omega, by omega, a5, a6⟩, ?_⟩
              rw [show k + 1 + (py - (y0 + 1)) = k + (py - y0) by omega]; exact hb
    · simp [Config.memSize] at h; omega


/-- Every instruction answers a next state; a raise is one (R256). -/
theorem exec_next (i : Instr) (s : State) : ∃ t, exec i s = .next t := by
  cases i
  case ret =>
    rcases pop_cases s with ⟨w, rest, -, e⟩ | ⟨-, e⟩ <;> exact ⟨_, by simp only [exec, execRet, e]; rfl⟩
  case call =>
    rcases push_cases s.pc s with ⟨-, e⟩ | ⟨-, e⟩ <;> exact ⟨_, by simp only [exec, execCall, e]; rfl⟩
  case drw x y n =>
    obtain ⟨d, b, q, h⟩ := drawRows_next (startColumn (s.readV x)) n.toNat (startRow (s.readV y)) (effAddr s 0) false s
    exact ⟨_, h⟩
  case skp => simp only [exec, execSkp]; split <;> exact ⟨_, rfl⟩
  case sknp => simp only [exec, execSknp]; split <;> exact ⟨_, rfl⟩
  case ldB => exact ⟨_, storeBytes_next _ _ _⟩
  case storeRegs => exact ⟨_, storeBytes_next _ _ _⟩
  case loadRegs x =>
    obtain ⟨v, h, -⟩ := loadInto_next (effAddr s 0) (regGroup x) s
    exact ⟨_, h⟩
  all_goals exact ⟨_, rfl⟩

/-! ### A step -/

/-- Adding 2 to PC as the fetch does it (R121). -/
theorem ofNat_toNat_add_two (w : Word) : BitVec.ofNat 16 (w.toNat + 2) = w + 2 := by
  apply BitVec.eq_of_toNat_eq; simp

/-- The state a handler starts from, written with the operations (R9, R121). -/
theorem afterFetch_eq (s : State) :
    advancePc ((s.setSchedule s.schedule.tail).setDrawReq false) = s.afterFetch := by
  unfold State.afterFetch advancePc
  rw [ofNat_toNat_add_two]
  rfl

/-- A step is the next event, taken off the schedule. -/
theorem runNext_eq (s : State) : runNext s = runEvent s.nextEvent (s.setSchedule s.schedule.tail) := by
  unfold runNext State.nextEvent
  cases h : s.schedule with
  | nil =>
    have e : s.setSchedule [] = s := by rw [← h]; rfl
    show runEvent .tick s = runEvent .tick (s.setSchedule [])
    rw [e]
  | cons e rest => rfl

/-- What a tick of a machine that is neither halted nor waiting does, at the level of the state before it. -/
theorem tickLive_executes {s : State} (h : s.nextEvent = .tick) (hf : s.fault = none) (hw : s.waiting = false) :
    (∃ i, s.executes = some i ∧ tickLive (s.setSchedule s.schedule.tail) = exec i s.afterFetch) ∨
    (s.executes = none ∧ ∃ c t, tickLive (s.setSchedule s.schedule.tail) = .next t ∧ t.fault = some c) := by
  rcases tickLive_cases (s.setSchedule s.schedule.tail) with ⟨h1, -⟩ | ⟨-, h1, e⟩ | ⟨-, h1, e⟩ | ⟨-, h1, e⟩
  · simp [hw] at h1
  · simp only [State.setSchedule_pc, State.setSchedule_byteAt] at h1 e
    rw [afterFetch_eq] at e
    rcases execute_cases s.wordAtPc s.afterFetch with ⟨i, hd, e'⟩ | ⟨r, hd, e'⟩
    · exact .inl ⟨i, by simp only [State.executes, h, hf, hw, h1, hd, and_self, if_true], e.trans e'⟩
    · exact .inr ⟨by simp only [State.executes, h, hf, hw, h1, hd, and_self, if_true], _, _, e.trans e', rfl⟩
  all_goals
    refine .inr ⟨?_, _, _, e, rfl⟩
    simp only [State.setSchedule_pc] at h1
    rw [State.executes, if_neg (by omega)]

/-- The timer step writes the two timers and the notifications only (R262, R47). -/
theorem advanceTimersLive_frame (s : State) :
    ∃ d t o, advanceTimersLive s = { s with dt := d, st := t, outputs := o } := by
  unfold advanceTimersLive stepSound stepDelay
  by_cases hd : 0 < s.dt.toNat <;> by_cases hs : 0 < s.st.toNat <;> by_cases hz : s.st - 1 = 0 <;>
    exact ⟨_, _, _, by simp only [hd, hs, hz, if_true, if_false, State.setDt_st]; rfl⟩

/-- What a step can do when it answers a next state: one instruction, a blocked tick, or an event of another
agent; only a reset takes a halted machine on (R127, R257). -/
theorem step_next {s t : State} (h : step s = .next t) :
    t.fault = none ∧
    ((s.nextEvent = .reset ∧ t = resetEvent (s.setSchedule s.schedule.tail)) ∨
      (s.fault = none ∧
        ((s.nextEvent = .tick ∧ ∃ i, s.executes = some i ∧ exec i s.afterFetch = .next t) ∨
          (s.nextEvent = .tick ∧ s.waiting = true ∧ s.executes = none ∧
            t = (s.setSchedule s.schedule.tail).setDrawReq false) ∨
          (s.nextEvent = .advanceTimers ∧ t = advanceTimersLive (s.setSchedule s.schedule.tail)) ∨
          (∃ k, s.nextEvent = .keyDown k ∧ t = keyEventLive k true (s.setSchedule s.schedule.tail)) ∨
          (∃ k, s.nextEvent = .keyUp k ∧ t = keyEventLive k false (s.setSchedule s.schedule.tail)) ∨
          (∃ bytes, s.nextEvent = .load bytes ∧ bytes.length ≤ Config.maxImage ∧
            t = (s.setSchedule s.schedule.tail).setMem (Memory.writeList s.mem Config.progBase bytes))))) := by
  rw [step, runNext_eq] at h
  obtain ⟨h, ht⟩ := settle_eq_next.mp h
  refine ⟨ht, ?_⟩
  cases hf : s.fault with
  | some c =>
    rw [runEvent_halted (by simpa using hf)] at h
    cases he : s.nextEvent <;> rw [he] at h <;> simp only [runHalted, Host.Outcome.next.injEq] at h
    case reset => exact .inl ⟨rfl, h.symm⟩
    all_goals (subst h; simp [hf] at ht)
  | none =>
    rw [runEvent_live (by simpa using hf)] at h
    cases he : s.nextEvent <;> rw [he] at h <;> simp only [runLive, Host.Outcome.next.injEq] at h
    case reset => exact .inl ⟨rfl, h.symm⟩
    all_goals refine .inr ⟨rfl, ?_⟩
    case tick =>
      cases hw : s.waiting with
      | true =>
        have hx : s.executes = none := by simp [State.executes, hw]
        simp only [tickLive, State.setSchedule_waiting, hw, if_true, Host.Outcome.next.injEq] at h
        exact .inr (.inl ⟨rfl, rfl, hx, h.symm⟩)
      | false =>
        rcases tickLive_executes he hf hw with ⟨i, hi, e⟩ | ⟨-, c, u, e, hu⟩
        · exact .inl ⟨rfl, i, hi, e.symm.trans h⟩
        · rw [h] at e; cases e; simp [hu] at ht
    case advanceTimers => simp [h]
    case keyDown k => simp [h]
    case keyUp k => simp [h]
    case load bytes =>
      unfold loadLive at h
      split at h
      · simp only [Host.Outcome.next.injEq] at h; simp_all
      · cases h

end Sys2Proof.Machine
end

