-- ==== Sys2Proof/Laws/PerInstr.lean ====
section
/-! SUPPORT. Statements made per instruction. -/

namespace Sys2Proof

/-- The word of the instruction lies in the instruction's own row of the opcode map (30_encoding.md rule
R95): it has the row's fixed bits. -/
def Laws.EncodesInRow.Statement (i : Instr) : Prop := encode i &&& i.row.mask = i.row.value

theorem Laws.EncodesInRow.ret (ignored : BitVec 8) : Laws.EncodesInRow.Statement (.ret ignored) :=
  (and_F00F (formatRet ignored)).trans (by rw [opFamily_formatRet, opN_formatRet]; rfl)

theorem Laws.EncodesInRow.cls (ignored : BitVec 12) : Laws.EncodesInRow.Statement (.cls ignored) :=
  (and_F000 (formatNNN 0x0 ignored)).trans (by rw [opFamily_formatNNN]; rfl)

theorem Laws.EncodesInRow.jp (nnn : Addr12) : Laws.EncodesInRow.Statement (.jp nnn) :=
  (and_F000 (formatNNN 0x1 nnn)).trans (by rw [opFamily_formatNNN]; rfl)

theorem Laws.EncodesInRow.call (nnn : Addr12) : Laws.EncodesInRow.Statement (.call nnn) :=
  (and_F000 (formatNNN 0x2 nnn)).trans (by rw [opFamily_formatNNN]; rfl)

theorem Laws.EncodesInRow.seImm (x : Nibble) (kk : Byte) : Laws.EncodesInRow.Statement (.seImm x kk) :=
  (and_F000 (formatXKK 0x3 x kk)).trans (by rw [opFamily_formatXKK]; rfl)

theorem Laws.EncodesInRow.sneImm (x : Nibble) (kk : Byte) : Laws.EncodesInRow.Statement (.sneImm x kk) :=
  (and_F000 (formatXKK 0x4 x kk)).trans (by rw [opFamily_formatXKK]; rfl)

theorem Laws.EncodesInRow.seReg (x y : Nibble) : Laws.EncodesInRow.Statement (.seReg x y) :=
  (and_F00F (formatXYN 0x5 x y 0x0)).trans (by rw [opFamily_formatXYN, opN_formatXYN]; rfl)

theorem Laws.EncodesInRow.ldImm (x : Nibble) (kk : Byte) : Laws.EncodesInRow.Statement (.ldImm x kk) :=
  (and_F000 (formatXKK 0x6 x kk)).trans (by rw [opFamily_formatXKK]; rfl)

theorem Laws.EncodesInRow.addImm (x : Nibble) (kk : Byte) : Laws.EncodesInRow.Statement (.addImm x kk) :=
  (and_F000 (formatXKK 0x7 x kk)).trans (by rw [opFamily_formatXKK]; rfl)

theorem Laws.EncodesInRow.ldReg (x y : Nibble) : Laws.EncodesInRow.Statement (.ldReg x y) :=
  (and_F00F (formatXYN 0x8 x y 0x0)).trans (by rw [opFamily_formatXYN, opN_formatXYN]; rfl)

theorem Laws.EncodesInRow.orReg (x y : Nibble) : Laws.EncodesInRow.Statement (.orReg x y) :=
  (and_F00F (formatXYN 0x8 x y 0x1)).trans (by rw [opFamily_formatXYN, opN_formatXYN]; rfl)

theorem Laws.EncodesInRow.andReg (x y : Nibble) : Laws.EncodesInRow.Statement (.andReg x y) :=
  (and_F00F (formatXYN 0x8 x y 0x2)).trans (by rw [opFamily_formatXYN, opN_formatXYN]; rfl)

theorem Laws.EncodesInRow.xorReg (x y : Nibble) : Laws.EncodesInRow.Statement (.xorReg x y) :=
  (and_F00F (formatXYN 0x8 x y 0x3)).trans (by rw [opFamily_formatXYN, opN_formatXYN]; rfl)

theorem Laws.EncodesInRow.addReg (x y : Nibble) : Laws.EncodesInRow.Statement (.addReg x y) :=
  (and_F00F (formatXYN 0x8 x y 0x4)).trans (by rw [opFamily_formatXYN, opN_formatXYN]; rfl)

theorem Laws.EncodesInRow.sub (x y : Nibble) : Laws.EncodesInRow.Statement (.sub x y) :=
  (and_F00F (formatXYN 0x8 x y 0x5)).trans (by rw [opFamily_formatXYN, opN_formatXYN]; rfl)

theorem Laws.EncodesInRow.shr (x y : Nibble) : Laws.EncodesInRow.Statement (.shr x y) :=
  (and_F00F (formatXYN 0x8 x y 0x6)).trans (by rw [opFamily_formatXYN, opN_formatXYN]; rfl)

theorem Laws.EncodesInRow.subn (x y : Nibble) : Laws.EncodesInRow.Statement (.subn x y) :=
  (and_F00F (formatXYN 0x8 x y 0x7)).trans (by rw [opFamily_formatXYN, opN_formatXYN]; rfl)

theorem Laws.EncodesInRow.shl (x y : Nibble) : Laws.EncodesInRow.Statement (.shl x y) :=
  (and_F00F (formatXYN 0x8 x y 0xE)).trans (by rw [opFamily_formatXYN, opN_formatXYN]; rfl)

theorem Laws.EncodesInRow.sneReg (x y : Nibble) : Laws.EncodesInRow.Statement (.sneReg x y) :=
  (and_F00F (formatXYN 0x9 x y 0x0)).trans (by rw [opFamily_formatXYN, opN_formatXYN]; rfl)

theorem Laws.EncodesInRow.ldI (nnn : Addr12) : Laws.EncodesInRow.Statement (.ldI nnn) :=
  (and_F000 (formatNNN 0xA nnn)).trans (by rw [opFamily_formatNNN]; rfl)

theorem Laws.EncodesInRow.jpV0 (nnn : Addr12) : Laws.EncodesInRow.Statement (.jpV0 nnn) :=
  (and_F000 (formatNNN 0xB nnn)).trans (by rw [opFamily_formatNNN]; rfl)

theorem Laws.EncodesInRow.rnd (x : Nibble) (kk : Byte) : Laws.EncodesInRow.Statement (.rnd x kk) :=
  (and_F000 (formatXKK 0xC x kk)).trans (by rw [opFamily_formatXKK]; rfl)

theorem Laws.EncodesInRow.drw (x y n : Nibble) : Laws.EncodesInRow.Statement (.drw x y n) :=
  (and_F000 (formatXYN 0xD x y n)).trans (by rw [opFamily_formatXYN]; rfl)

theorem Laws.EncodesInRow.skp (x : Nibble) : Laws.EncodesInRow.Statement (.skp x) :=
  (and_F0FF (formatXKK 0xE x 0x9E)).trans (by rw [opFamily_formatXKK, opKK_formatXKK]; rfl)

theorem Laws.EncodesInRow.sknp (x : Nibble) : Laws.EncodesInRow.Statement (.sknp x) :=
  (and_F0FF (formatXKK 0xE x 0xA1)).trans (by rw [opFamily_formatXKK, opKK_formatXKK]; rfl)

theorem Laws.EncodesInRow.ldVxDt (x : Nibble) : Laws.EncodesInRow.Statement (.ldVxDt x) :=
  (and_F0FF (formatXKK 0xF x 0x07)).trans (by rw [opFamily_formatXKK, opKK_formatXKK]; rfl)

theorem Laws.EncodesInRow.ldVxK (x : Nibble) : Laws.EncodesInRow.Statement (.ldVxK x) :=
  (and_F0FF (formatXKK 0xF x 0x0A)).trans (by rw [opFamily_formatXKK, opKK_formatXKK]; rfl)

theorem Laws.EncodesInRow.ldDtVx (x : Nibble) : Laws.EncodesInRow.Statement (.ldDtVx x) :=
  (and_F0FF (formatXKK 0xF x 0x15)).trans (by rw [opFamily_formatXKK, opKK_formatXKK]; rfl)

theorem Laws.EncodesInRow.ldStVx (x : Nibble) : Laws.EncodesInRow.Statement (.ldStVx x) :=
  (and_F0FF (formatXKK 0xF x 0x18)).trans (by rw [opFamily_formatXKK, opKK_formatXKK]; rfl)

theorem Laws.EncodesInRow.addI (x : Nibble) : Laws.EncodesInRow.Statement (.addI x) :=
  (and_F0FF (formatXKK 0xF x 0x1E)).trans (by rw [opFamily_formatXKK, opKK_formatXKK]; rfl)

theorem Laws.EncodesInRow.ldF (x : Nibble) : Laws.EncodesInRow.Statement (.ldF x) :=
  (and_F0FF (formatXKK 0xF x 0x29)).trans (by rw [opFamily_formatXKK, opKK_formatXKK]; rfl)

theorem Laws.EncodesInRow.ldB (x : Nibble) : Laws.EncodesInRow.Statement (.ldB x) :=
  (and_F0FF (formatXKK 0xF x 0x33)).trans (by rw [opFamily_formatXKK, opKK_formatXKK]; rfl)

theorem Laws.EncodesInRow.storeRegs (x : Nibble) : Laws.EncodesInRow.Statement (.storeRegs x) :=
  (and_F0FF (formatXKK 0xF x 0x55)).trans (by rw [opFamily_formatXKK, opKK_formatXKK]; rfl)

theorem Laws.EncodesInRow.loadRegs (x : Nibble) : Laws.EncodesInRow.Statement (.loadRegs x) :=
  (and_F0FF (formatXKK 0xF x 0x65)).trans (by rw [opFamily_formatXKK, opKK_formatXKK]; rfl)

end Sys2Proof
end

