-- ==== Sys2Proof/Tests/Slice0.lean ====
section
/-! SUPPORT. Tests of the model: words written out bit by bit from the formats of 30_encoding.md rules R91 and R95,
single steps with the expected values of 95_test_vectors.md (the vector's id stands in each comment), and a witness
for the hypotheses of every statement that has some. -/

namespace Sys2Proof.Tests

open Sys2Proof Sys2Proof.Machine

/-! ### WellFormed -/

/-- The one ill-formed term: a CLS whose kept bits are those of a RET (R96). Its word decodes to the RET. -/
theorem test_wellFormed_refuses_cls_E : (Instr.cls 0x00E).wellFormed = false ∧
    decode (encode (.cls 0x00E)) = .ok (.ret 0x00) := by decide

theorem test_wellFormed_accepts_cls : (Instr.cls 0xFFF).wellFormed = true := by decide

/-! ### Decoding: each word by its nibbles -/

theorem test_decode_ret : decode (0b0000000011101110 : Word) = .ok (Instr.ret 0x0E) ∧ encode (Instr.ret 0x0E) = 0b0000000011101110 := by decide

theorem test_decode_cls : decode (0b0000000011100000 : Word) = .ok (Instr.cls 0x0E0) ∧ encode (Instr.cls 0x0E0) = 0b0000000011100000 := by decide

theorem test_decode_jp : decode (0b0001101010111100 : Word) = .ok (Instr.jp 0xABC) ∧ encode (Instr.jp 0xABC) = 0b0001101010111100 := by decide

theorem test_decode_call : decode (0b0010001000110100 : Word) = .ok (Instr.call 0x234) ∧ encode (Instr.call 0x234) = 0b0010001000110100 := by decide

theorem test_decode_seImm : decode (0b0011101011000101 : Word) = .ok (Instr.seImm 0xA 0xC5) ∧ encode (Instr.seImm 0xA 0xC5) = 0b0011101011000101 := by decide

theorem test_decode_sneImm : decode (0b0100001100010001 : Word) = .ok (Instr.sneImm 0x3 0x11) ∧ encode (Instr.sneImm 0x3 0x11) = 0b0100001100010001 := by decide

theorem test_decode_seReg : decode (0b0101000100100000 : Word) = .ok (Instr.seReg 0x1 0x2) ∧ encode (Instr.seReg 0x1 0x2) = 0b0101000100100000 := by decide

theorem test_decode_ldImm : decode (0b0110101011111010 : Word) = .ok (Instr.ldImm 0xA 0xFA) ∧ encode (Instr.ldImm 0xA 0xFA) = 0b0110101011111010 := by decide

theorem test_decode_addImm : decode (0b0111000100000010 : Word) = .ok (Instr.addImm 0x1 0x02) ∧ encode (Instr.addImm 0x1 0x02) = 0b0111000100000010 := by decide

theorem test_decode_ldReg : decode (0b1000000100100000 : Word) = .ok (Instr.ldReg 0x1 0x2) ∧ encode (Instr.ldReg 0x1 0x2) = 0b1000000100100000 := by decide

theorem test_decode_orReg : decode (0b1000000100100001 : Word) = .ok (Instr.orReg 0x1 0x2) ∧ encode (Instr.orReg 0x1 0x2) = 0b1000000100100001 := by decide

theorem test_decode_andReg : decode (0b1000000100100010 : Word) = .ok (Instr.andReg 0x1 0x2) ∧ encode (Instr.andReg 0x1 0x2) = 0b1000000100100010 := by decide

theorem test_decode_xorReg : decode (0b1000000100100011 : Word) = .ok (Instr.xorReg 0x1 0x2) ∧ encode (Instr.xorReg 0x1 0x2) = 0b1000000100100011 := by decide

theorem test_decode_addReg : decode (0b1000000100100100 : Word) = .ok (Instr.addReg 0x1 0x2) ∧ encode (Instr.addReg 0x1 0x2) = 0b1000000100100100 := by decide

theorem test_decode_sub : decode (0b1000000100100101 : Word) = .ok (Instr.sub 0x1 0x2) ∧ encode (Instr.sub 0x1 0x2) = 0b1000000100100101 := by decide

theorem test_decode_shr : decode (0b1000000100100110 : Word) = .ok (Instr.shr 0x1 0x2) ∧ encode (Instr.shr 0x1 0x2) = 0b1000000100100110 := by decide

theorem test_decode_subn : decode (0b1000000100100111 : Word) = .ok (Instr.subn 0x1 0x2) ∧ encode (Instr.subn 0x1 0x2) = 0b1000000100100111 := by decide

theorem test_decode_shl : decode (0b1000000100101110 : Word) = .ok (Instr.shl 0x1 0x2) ∧ encode (Instr.shl 0x1 0x2) = 0b1000000100101110 := by decide

theorem test_decode_sneReg : decode (0b1001000100100000 : Word) = .ok (Instr.sneReg 0x1 0x2) ∧ encode (Instr.sneReg 0x1 0x2) = 0b1001000100100000 := by decide

theorem test_decode_ldI : decode (0b1010001100000000 : Word) = .ok (Instr.ldI 0x300) ∧ encode (Instr.ldI 0x300) = 0b1010001100000000 := by decide

theorem test_decode_jpV0 : decode (0b1011111111111110 : Word) = .ok (Instr.jpV0 0xFFE) ∧ encode (Instr.jpV0 0xFFE) = 0b1011111111111110 := by decide

theorem test_decode_rnd : decode (0b1100001100001111 : Word) = .ok (Instr.rnd 0x3 0x0F) ∧ encode (Instr.rnd 0x3 0x0F) = 0b1100001100001111 := by decide

theorem test_decode_drw : decode (0b1101000000010010 : Word) = .ok (Instr.drw 0x0 0x1 0x2) ∧ encode (Instr.drw 0x0 0x1 0x2) = 0b1101000000010010 := by decide

theorem test_decode_skp : decode (0b1110010110011110 : Word) = .ok (Instr.skp 0x5) ∧ encode (Instr.skp 0x5) = 0b1110010110011110 := by decide

theorem test_decode_sknp : decode (0b1110010110100001 : Word) = .ok (Instr.sknp 0x5) ∧ encode (Instr.sknp 0x5) = 0b1110010110100001 := by decide

theorem test_decode_ldVxDt : decode (0b1111001000000111 : Word) = .ok (Instr.ldVxDt 0x2) ∧ encode (Instr.ldVxDt 0x2) = 0b1111001000000111 := by decide

theorem test_decode_ldVxK : decode (0b1111000100001010 : Word) = .ok (Instr.ldVxK 0x1) ∧ encode (Instr.ldVxK 0x1) = 0b1111000100001010 := by decide

theorem test_decode_ldDtVx : decode (0b1111011000010101 : Word) = .ok (Instr.ldDtVx 0x6) ∧ encode (Instr.ldDtVx 0x6) = 0b1111011000010101 := by decide

theorem test_decode_ldStVx : decode (0b1111001100011000 : Word) = .ok (Instr.ldStVx 0x3) ∧ encode (Instr.ldStVx 0x3) = 0b1111001100011000 := by decide

theorem test_decode_addI : decode (0b1111001000011110 : Word) = .ok (Instr.addI 0x2) ∧ encode (Instr.addI 0x2) = 0b1111001000011110 := by decide

theorem test_decode_ldF : decode (0b1111101100101001 : Word) = .ok (Instr.ldF 0xB) ∧ encode (Instr.ldF 0xB) = 0b1111101100101001 := by decide

theorem test_decode_ldB : decode (0b1111100100110011 : Word) = .ok (Instr.ldB 0x9) ∧ encode (Instr.ldB 0x9) = 0b1111100100110011 := by decide

theorem test_decode_storeRegs : decode (0b1111001001010101 : Word) = .ok (Instr.storeRegs 0x2) ∧ encode (Instr.storeRegs 0x2) = 0b1111001001010101 := by decide

theorem test_decode_loadRegs : decode (0b1111110001100101 : Word) = .ok (Instr.loadRegs 0xC) ∧ encode (Instr.loadRegs 0xC) = 0b1111110001100101 := by decide


/-- R98 to R101: the vectors T7, T8, T9, T10, and a word of family 9. -/
theorem test_decode_refuses : decode 0x8128 = .error (.unrecognized 0x8128) ∧
    decode 0x5121 = .error (.unrecognized 0x5121) ∧ decode 0xE000 = .error (.unrecognized 0xE000) ∧
    decode 0xF175 = .error (.unrecognized 0xF175) ∧ decode 0x9121 = .error (.unrecognized 0x9121) := by decide

/-- R66: the byte at the lower address is the high byte. -/
theorem test_decodeBytes_bigEndian : decodeBytes [0x22, 0x34] = .ok (.call 0x234, []) := by decide

/-- The host's numbering: bit 0 is the least significant bit of the one word. -/
theorem test_decodeTableWord : decodeTableWord 16 0xD012 = some (.drw 0 1 2) := by decide

/-! ### One step of each instruction -/

/-- One step with the word placed where the machine fetches next: the state after it, faulted or not. -/
def after (w : Nat) (s : State) : Option State :=
  match step (s.withFetchWord 16 w) with
  | .next t => some t
  | .fault (.halted _ t) => some t
  | .refused _ => none

/-- One step with one event scheduled. -/
def afterEvent (e : Event) (s : State) : Option State :=
  match step (s.setSchedule [e]) with
  | .next t => some t
  | .fault (.halted _ t) => some t
  | .refused _ => none

/-- The state after reset with V1 and V2 set. -/
def withV12 (a b : Byte) : State := (State.reset.setV 1 a).setV 2 b

/-- F1 -/
theorem test_ret : (after 0x00EE ((State.reset.setPc 0x20C).setStack [0x0206])).map (fun t => (t.pc, t.stack)) =
    some (0x0206, []) := by decide

/-- F2 -/
theorem test_ret_underflow : (after 0x00EE State.reset).map (fun t => (t.fault, t.pc, t.stack)) =
    some (some .stackUnderflow, 0x0202, []) := by decide

/-- P8 -/
theorem test_cls : (after 0x00E0 (State.reset.setPix (setPixel 5 6 true blankDisplay).1)).map (fun t => (pixelAt t.pix 5 6, t.drawReq, t.pc)) =
    some (false, true, 0x0202) := by decide

/-- F3 -/
theorem test_jp : (after 0x1204 (State.reset.setPc 0x20A)).map (fun t => t.pc) =
    some 0x0204 := by decide

/-- S6a -/
theorem test_call : (after 0x2234 State.reset).map (fun t => (t.pc, t.stack)) =
    some (0x0234, [0x0202]) := by decide

/-- F6 -/
theorem test_call_overflow : (after 0x2200 (State.reset.setStack (List.replicate 24 0x0300))).map (fun t => (t.fault, t.pc, t.stack.length)) =
    some (some .stackOverflow, 0x0202, 24) := by decide

/-- F7 -/
theorem test_seImm_skips : (after 0x3000 (State.reset.setPc 0x208)).map (fun t => t.pc) =
    some 0x020C := by decide

/-- F8 -/
theorem test_seImm_stays : (after 0x3000 ((State.reset.setPc 0x208).setV 0 1)).map (fun t => t.pc) =
    some 0x020A := by decide

/-- F9 -/
theorem test_sneImm_skips : (after 0x4311 ((State.reset.setPc 0x300).setV 3 0x10)).map (fun t => t.pc) =
    some 0x0304 := by decide

/-- F10 -/
theorem test_sneImm_stays : (after 0x4310 ((State.reset.setPc 0x300).setV 3 0x10)).map (fun t => t.pc) =
    some 0x0302 := by decide

/-- F11 -/
theorem test_seReg_skips : (after 0x5120 (withV12 7 7)).map (fun t => t.pc) =
    some 0x0204 := by decide

/-- F13 -/
theorem test_sneReg_skips : (after 0x9120 (withV12 7 8)).map (fun t => t.pc) =
    some 0x0204 := by decide

/-- F14 -/
theorem test_sneReg_stays : (after 0x9120 (withV12 7 7)).map (fun t => t.pc) =
    some 0x0202 := by decide

/-- F16 -/
theorem test_jpV0 : (after 0xBFFF (State.reset.setV 0 0xFF)).map (fun t => t.pc) =
    some 0x10FE := by decide

/-- S6b, A1 -/
theorem test_ldImm : (after 0x6AFA State.reset).map (fun t => (t.readV 10, t.pc)) =
    some (0xFA, 0x0202) := by decide

/-- A2 -/
theorem test_addImm_wraps : (after 0x7102 (withV12 0xFF 0)).map (fun t => (t.readV 1, t.readV 15)) =
    some (0x01, 0x00) := by decide

/-- A3 -/
theorem test_ldReg : (after 0x8120 (withV12 0x11 0x5A)).map (fun t => (t.readV 1, t.readV 2)) =
    some (0x5A, 0x5A) := by decide

/-- A5 -/
theorem test_orReg_keeps_vf : (after 0x8121 ((withV12 0xF0 0x0F).setV 15 1)).map (fun t => (t.readV 1, t.readV 15)) =
    some (0xFF, 0x01) := by decide

/-- A6 -/
theorem test_andReg : (after 0x8122 (withV12 0xF0 0x3C)).map (fun t => t.readV 1) =
    some 0x30 := by decide

/-- A7 -/
theorem test_xorReg : (after 0x8123 (withV12 0xF0 0x3C)).map (fun t => t.readV 1) =
    some 0xCC := by decide

/-- A8 -/
theorem test_addReg_carries : (after 0x8124 (withV12 0xC8 0x64)).map (fun t => (t.readV 1, t.readV 15)) =
    some (0x2C, 0x01) := by decide

/-- A35 -/
theorem test_addReg_into_vf : (after 0x8F24 ((withV12 0 0x01).setV 15 0xFF)).map (fun t => t.readV 15) =
    some 0x01 := by decide

/-- A14 -/
theorem test_sub_equal : (after 0x8125 (withV12 0x0A 0x0A)).map (fun t => (t.readV 1, t.readV 15)) =
    some (0x00, 0x00) := by decide

/-- A34 -/
theorem test_sub_from_vf : (after 0x81F5 ((withV12 0x10 0).setV 15 0x01)).map (fun t => (t.readV 1, t.readV 15)) =
    some (0x0F, 0x01) := by decide

/-- A22 -/
theorem test_shr : (after 0x8126 (withV12 0x05 0xF0)).map (fun t => (t.readV 1, t.readV 2, t.readV 15)) =
    some (0x02, 0xF0, 0x01) := by decide

/-- A38 -/
theorem test_shr_of_vf : (after 0x8F26 ((withV12 0 0).setV 15 0x03)).map (fun t => t.readV 15) =
    some 0x01 := by decide

/-- A18 -/
theorem test_subn : (after 0x8127 (withV12 0x03 0x0A)).map (fun t => (t.readV 1, t.readV 2, t.readV 15)) =
    some (0x07, 0x0A, 0x01) := by decide

/-- A19 -/
theorem test_subn_equal : (after 0x8127 (withV12 0x0A 0x0A)).map (fun t => (t.readV 1, t.readV 15)) =
    some (0x00, 0x00) := by decide

/-- A27 -/
theorem test_shl : (after 0x812E (withV12 0x81 0xF0)).map (fun t => (t.readV 1, t.readV 2, t.readV 15)) =
    some (0x02, 0xF0, 0x01) := by decide

/-- A39 -/
theorem test_shl_of_vf : (after 0x8F2E ((withV12 0 0).setV 15 0x80)).map (fun t => t.readV 15) =
    some 0x01 := by decide

/-- A41 -/
theorem test_rnd : (after 0xC10F { State.reset with supply := [0xB7, 0x11] }).map (fun t => (t.readV 1, t.supply)) =
    some (0x07, [0x11]) := by decide

/-- A43 -/
theorem test_rnd_draws_for_zero : (after 0xC100 { State.reset with supply := [0xB7] }).map (fun t => (t.readV 1, t.supply, t.draws)) =
    some (0x00, [], 1) := by decide

/-- M1 -/
theorem test_ldI : (after 0xA300 State.reset).map (fun t => t.i) =
    some 0x0300 := by decide

/-- M3 -/
theorem test_addI_no_mask : (after 0xF21E ((State.reset.setI 0x0FFF).setV 2 1)).map (fun t => (t.i, t.readV 15)) =
    some (0x1000, 0x00) := by decide

/-- M4 -/
theorem test_addI_wraps : (after 0xF21E ((State.reset.setI 0xFFFF).setV 2 2)).map (fun t => t.i) =
    some 0x0001 := by decide

/-- M5 -/
theorem test_ldF : (after 0xF029 (State.reset.setV 0 0x0A)).map (fun t => t.i) =
    some 0x0032 := by decide

/-- M6 -/
theorem test_ldF_above_15 : (after 0xF029 ((State.reset.setI 0x0123).setV 0 0x10)).map (fun t => (t.i, t.fault)) =
    some (0x0123, none) := by decide

/-- M7 -/
theorem test_ldB : (after 0xF933 ((State.reset.setI 0x0300).setV 9 249)).map (fun t => (t.byteAt 0x300, t.byteAt 0x301, t.byteAt 0x302)) =
    some (2, 4, 9) := by decide

/-- M8 -/
theorem test_ldB_faults : (after 0xF933 ((State.reset.setI 0x0FFE).setV 9 249)).map (fun t => (t.byteAt 0xFFE, t.byteAt 0xFFF, t.fault, t.pc)) =
    some (2, 4, some (.addressOutOfRange 4096), 0x0202) := by decide

/-- M10 -/
theorem test_storeRegs_faults : (after 0xF255 (((((State.reset.setI 0x0FFE).setV 0 0xAA)).setV 1 0xBB).setV 2 0xCC)).map (fun t => (t.byteAt 0xFFE, t.byteAt 0xFFF, t.fault)) =
    some (0xAA, 0xBB, some (.addressOutOfRange 4096)) := by decide

/-- M14 -/
theorem test_storeRegs_not_truncated : (after 0xF055 ((State.reset.setI 0xFFFF).setV 0 1)).map (fun t => t.fault) =
    some (some (.addressOutOfRange 65535)) := by decide

/-- example of R196 -/
theorem test_loadRegs : (after 0xF265 ((State.reset.setI 0x0300).setMem [(0x300, 2), (0x301, 4), (0x302, 9), (0x303, 7)])).map (fun t => (t.readV 0, t.readV 1, t.readV 2, t.readV 3, t.i)) =
    some (2, 4, 9, 0, 0x0300) := by decide

/-- M11 -/
theorem test_loadRegs_faults : (after 0xF165 ((State.reset.setI 0x0FFF).setMem [(0xFFF, 7)])).map (fun t => (t.readV 0, t.readV 1, t.fault)) =
    some (7, 0, some (.addressOutOfRange 4096)) := by decide

/-- P5 -/
theorem test_drw_clips : (after 0xD012 ((((State.reset.setI 0x300).setMem [(0x300, 0xFF), (0x301, 0x81)]).setV 0 62).setV 1 95)).map (fun t => (pixelAt t.pix 62 31, pixelAt t.pix 63 31, pixelAt t.pix 0 31, pixelAt t.pix 62 0, t.readV 15, t.drawReq)) =
    some (true, true, false, false, 0, true) := by decide

/-- P2, the second draw -/
theorem test_drw_collides : (after 0xD011 ((((State.reset.setI 0x300).setMem [(0x300, 0xC0)]).setV 0 1).setPix
    (setPixel 1 0 true (setPixel 0 0 true blankDisplay).1).1)).map (fun t => (pixelAt t.pix 0 0, pixelAt t.pix 1 0, pixelAt t.pix 2 0, t.readV 15)) =
    some (true, false, true, 1) := by decide

/-- K1 -/
theorem test_skp_skips : (after 0xE09E (((State.reset.setPc 0x208).setV 0 0x0A).setKey 10 true)).map (fun t => t.pc) =
    some 0x020C := by decide

/-- K4 -/
theorem test_skp_faults : (after 0xE09E (State.reset.setV 0 0x10)).map (fun t => (t.fault, t.pc)) =
    some (some (.keyIndexOutOfRange 16), 0x0202) := by decide

/-- K3 -/
theorem test_sknp_skips : (after 0xE0A1 ((State.reset.setPc 0x208).setV 0 0x0A)).map (fun t => t.pc) =
    some 0x020C := by decide

/-- K5 -/
theorem test_ldVxK : (after 0xF10A (State.reset.setPc 0x204)).map (fun t => (t.waiting, t.pc, t.readV 1)) =
    some (true, 0x0206, 0) := by decide

/-- K8 -/
theorem test_ldVxDt : (after 0xF207 (State.reset.setDt 8)).map (fun t => (t.readV 2, t.dt, t.drawReq)) =
    some (8, 8, false) := by decide

/-- K9 -/
theorem test_ldDtVx : (after 0xF015 (State.reset.setV 0 0x0A)).map (fun t => (t.dt, t.drawReq)) =
    some (0x0A, false) := by decide

/-- K11 -/
theorem test_ldStVx_starts_again : (after 0xF318 ((State.reset.setV 3 5).setSt 2)).map (fun t => (t.st, t.outputs)) =
    some (5, [.startSound]) := by decide

/-- K12 -/
theorem test_ldStVx_zero_silent : (after 0xF318 (State.reset.setSt 2)).map (fun t => (t.st, t.outputs)) =
    some (0, []) := by decide

/-! ### The tick and the events -/

/-- T3. -/
theorem test_fetch_at_4095 : (afterEvent .tick (State.reset.setPc 0x0FFF)).map (fun t => (t.fault, t.pc)) =
    some (some (.addressOutOfRange 4096), 0x0FFF) := by decide

/-- T4. -/
theorem test_fetch_at_4096 : (afterEvent .tick (State.reset.setPc 0x1000)).map (fun t => (t.fault, t.pc)) =
    some (some (.addressOutOfRange 4096), 0x1000) := by decide

/-- T7. -/
theorem test_illegal_word : (after 0x8128 State.reset).map (fun t => (t.fault, t.pc)) =
    some (some (.unrecognizedOpcode 0x8128), 0x0202) := by decide

/-- T2. -/
theorem test_tick_waiting : (afterEvent .tick (((State.reset.setWaiting true).setDrawReq true).setPc 0x206)).map
    (fun t => (t.drawReq, t.pc, t.waiting)) = some (false, 0x0206, true) := by decide

/-- T6. -/
theorem test_tick_halted : (afterEvent .tick (((State.reset.setFault (some .stackUnderflow)).setDrawReq true).setPc
    0x202)).map (fun t => (t.drawReq, t.pc, t.fault)) = some (true, 0x0202, some .stackUnderflow) := by decide

/-- K6. -/
theorem test_key_down : (afterEvent (.keyDown 10) (State.reset.setWaiting true)).map
    (fun t => (t.readKey 10, t.waiting, t.readV 1)) = some (true, false, 0) := by decide

/-- K7. -/
theorem test_key_up : (afterEvent (.keyUp 3) (State.reset.setWaiting true)).map
    (fun t => (t.readKey 3, t.waiting)) = some (false, false) := by decide

/-- K13. -/
theorem test_timers_to_zero : (afterEvent .advanceTimers ((State.reset.setDt 1).setSt 1)).map
    (fun t => (t.dt, t.st, t.outputs)) = some (0, 0, [.stopSound]) := by decide

/-- K14. -/
theorem test_timers_at_zero : (afterEvent .advanceTimers State.reset).map
    (fun t => (t.dt, t.st, t.outputs)) = some (0, 0, []) := by decide

/-- K16. -/
theorem test_reset_event : (afterEvent .reset ((((State.reset.setSt 9).setWaiting true).setKey 4 true).setFault
    (some .stackOverflow))).map (fun t => (t.st, t.waiting, t.readKey 4, t.fault, t.outputs)) =
    some (0, false, false, none, []) := by decide

/-- R295: the image of S6a, loaded by the host. -/
theorem test_load : (afterEvent (.load [0x22, 0x34]) State.reset).map
    (fun t => (t.byteAt 0x200, t.byteAt 0x201, t.byteAt 0x202, t.pc)) = some (0x22, 0x34, 0, 0x200) := by decide

/-- R293: the first and the last glyph, by the addresses of the table. -/
theorem test_font : (List.range 5).map State.reset.byteAt = [0xF0, 0x90, 0x90, 0x90, 0xF0] ∧
    (List.range' 0x4B 6).map State.reset.byteAt = [0xF0, 0x80, 0xF0, 0x80, 0x80, 0x00] := by decide

/-- R250: the codes of the five causes. -/
theorem test_faultCode : ([.addressOutOfRange 4096, .unrecognizedOpcode 0x8128, .stackOverflow, .stackUnderflow,
    .keyIndexOutOfRange 16] : List FaultCause).map faultCode = [1, 2, 3, 4, 5] := by decide

/-- R32, R41: the debug head of the stack and the ports. -/
theorem test_observe : peek (State.reset.setStack [0x206, 0x300]) = some 0x206 ∧ peek State.reset = none ∧
    stackDepth (State.reset.setStack [0x206, 0x300]) = 2 ∧
    getPixel (State.reset.setPix (setPixel 63 31 true blankDisplay).1) 63 31 = true ∧
    (observePorts (State.reset.setI 5)).i = 5 := by decide

/-! ### Witnesses: states and operands that meet the hypotheses of the statements -/

/-- The state after reset with the event next. -/
def nextIs (e : Event) : State := State.reset.setSchedule [e]

theorem witness_DecodeOfEncode : (Instr.drw 15 15 15).wellFormed = true ∧ (Instr.cls 0xFFF).wellFormed = true ∧
    (Instr.cls 0x00D).wellFormed = true := by decide

theorem witness_EncodeOfDecode : decode 0x0FFE = .ok (.ret 0xFF) ∧ decode 0xFF65 = .ok (.loadRegs 15) := by decide

/-- Every row's clause is met by the word with all its operand bits set; CLS's by 0x0FFF. -/
theorem witness_MaskedWordsDecode :
    (∀ r ∈ opcodeMap, (r.value ||| ~~~r.mask) &&& r.mask = r.value) ∧
    (0x0FFF : Word) &&& 0xF000 = 0x0000 ∧ (0x0FFF : Word) &&& 0xF00F ≠ 0x000E := by decide

theorem witness_IllegalWordsExactly : decode 0x8FFF = .error (.unrecognized 0x8FFF) ∧
    decode 0x500F = .error (.unrecognized 0x500F) ∧ decode 0xF000 = .error (.unrecognized 0xF000) := by decide

theorem witness_IgnoredBitsAffectNothing :
    (opFamily 0x0000 = 0x0 ∧ opFamily 0x0FFF = 0x0 ∧ (opN 0x0000 = 0xE ↔ opN 0x0FFF = 0xE)) ∧
    (opFamily 0x000E = 0x0 ∧ opFamily 0x0FFE = 0x0 ∧ (opN 0x000E = 0xE ↔ opN 0x0FFE = 0xE)) ∧
    (opFamily 0x8106 = 0x8 ∧ opFamily 0x81F6 = 0x8 ∧ opX 0x8106 = opX 0x81F6 ∧ opN 0x8106 = opN 0x81F6 ∧
      opN 0x8106 = 0x6) ∧
    (opFamily 0x810E = 0x8 ∧ opFamily 0x81FE = 0x8 ∧ opX 0x810E = opX 0x81FE ∧ opN 0x810E = opN 0x81FE ∧
      opN 0x810E = 0xE) ∧
    (opFamily 0xF00A = 0xF ∧ opFamily 0xFF0A = 0xF ∧ opKK 0xF00A = 0x0A ∧ opKK 0xFF0A = 0x0A) := by decide

/-- At the last fetchable PC. -/
theorem witness_StepRunsDecodedInstruction :
    let s := (State.reset.setPc 4094).setMem [(4094, 0x6A), (4095, 0xFA)]
    s.nextEvent = .tick ∧ s.fault = none ∧ s.waiting = false ∧ s.pc.toNat + 1 < 4096 ∧
      decode (wordOfBytes (s.byteAt s.pc.toNat) (s.byteAt (s.pc.toNat + 1))) = .ok (.ldImm 0xA 0xFA) := by decide

theorem witness_FetchFaults :
    State.reset.nextEvent = .tick ∧ State.reset.fault = none ∧ State.reset.waiting = false ∧
      4095 ≤ (State.reset.setPc 4095).pc.toNat ∧ 4095 ≤ (State.reset.setPc 4096).pc.toNat ∧
      4095 ≤ (State.reset.setPc 0xFFFF).pc.toNat := by decide

theorem witness_IllegalWordFaults :
    let s := (State.reset.setPc 4094).setMem [(4094, 0x81), (4095, 0x28)]
    s.nextEvent = .tick ∧ s.fault = none ∧ s.waiting = false ∧ s.pc.toNat + 1 < 4096 ∧
      decode s.wordAtPc = .error (.unrecognized 0x8128) := by decide

theorem witness_WaitingTickOnlyClearsDrawReq :
    let s := (State.reset.setWaiting true).setDrawReq true
    s.nextEvent = .tick ∧ s.fault = none ∧ s.waiting = true := by decide

theorem witness_HaltedUntilReset :
    let s := State.reset.setFault (some .stackUnderflow)
    s.fault = some .stackUnderflow ∧ s.nextEvent ≠ .reset ∧ (s.setSchedule [.keyUp 3]).nextEvent ≠ .reset ∧
      (s.setSchedule [.reset]).nextEvent = .reset := by decide

theorem witness_CallPushesReturnAddress :
    (State.reset.setStack (List.replicate 23 0x300)).stack.length < 24 ∧
      24 ≤ (State.reset.setStack (List.replicate 24 0x300)).stack.length := by decide

theorem witness_ReturnPopsIntoPc :
    (State.reset.setStack [0x206]).stack = 0x206 :: [] ∧ State.reset.stack = [] := by decide

theorem witness_CallThenReturnComesBack :
    ∃ t, (State.reset.setStack (List.replicate 23 0x300)).stack.length < 24 ∧
      exec (.call 0x234) (State.reset.setStack (List.replicate 23 0x300)) = .next t ∧
      ((t.setV 3 7).setPc 0x234).stack = t.stack := ⟨_, by decide, rfl, rfl⟩

/-- The last register that keeps the result; with 15 the flag stays. -/
theorem witness_AddSetsCarry : (14 : Nibble) ≠ 15 := by decide

theorem witness_SubtractSetsStrictFlag : (14 : Nibble) ≠ 15 := by decide

theorem witness_ShiftsSetShiftedOutBit : (14 : Nibble) ≠ 15 := by decide

theorem witness_IndexRegisterLoads :
    ((State.reset.setV 0 15).readV 0).toNat ≤ 15 ∧ ¬((State.reset.setV 0 16).readV 0).toNat ≤ 15 := by decide

theorem witness_RandomIsMasked :
    { State.reset with supply := [0xB7, 0x11] }.supply = 0xB7 :: [0x11] ∧ State.reset.supply = [] ∧
      (0xF0 : Byte).getLsbD 0 = false := by decide

theorem witness_DecimalDigitsStored :
    let s := State.reset.setI 4093
    Memory.wf s.mem ∧ s.i.toNat ≤ 4093 := by decide

theorem witness_RegistersStored :
    let s := State.reset.setI 4080
    Memory.wf s.mem ∧ s.i.toNat + (15 : Nibble).toNat ≤ 4095 := by decide

theorem witness_RegistersLoaded :
    (State.reset.setI 4080).i.toNat + (15 : Nibble).toNat ≤ 4095 ∧ (7 : Nibble).toNat < (8 : Nibble).toNat := by decide

theorem witness_StoreFaultsArePrecise :
    Memory.wf State.reset.mem ∧ 4095 < (State.reset.setI 4094).i.toNat + 2 ∧
      4095 < (State.reset.setI 4096).i.toNat + (0 : Nibble).toNat ∧
      4095 < (State.reset.setI 4081).i.toNat + (15 : Nibble).toNat := by decide

/-- At 4081 with x = 15 register 14 is loaded and register 15 is not; at 65535 none is. -/
theorem witness_LoadFaultsArePrecise :
    4095 < (State.reset.setI 4081).i.toNat + (15 : Nibble).toNat ∧
      (State.reset.setI 4081).i.toNat + (14 : Nibble).toNat ≤ 4095 ∧
      4095 < (State.reset.setI 65535).i.toNat + (0 : Nibble).toNat := by decide

theorem witness_DumpLoadRoundTrip :
    let s := (State.reset.setI 4080).setV 15 0xAB
    ∃ t, Memory.wf s.mem ∧ s.i.toNat + (15 : Nibble).toNat ≤ 4095 ∧ exec (.storeRegs 15) s = .next t ∧
      (t.setV 15 0).mem = t.mem ∧ (t.setV 15 0).i = t.i := by
  intro s
  obtain ⟨t, h⟩ := exec_next (.storeRegs 15) s
  exact ⟨t, by decide, by decide, h, rfl, rfl⟩

/-- The instruction that immediately follows the store is overwritten by it. -/
theorem witness_StoreSeenByNextFetch :
    let s := ((State.reset.setI 0x202).setPc 0x202).setV 0 0x6A
    ∃ t, Memory.wf s.mem ∧ s.i.toNat + (1 : Nibble).toNat ≤ 4095 ∧ exec (.storeRegs 1) s = .next t ∧
      (0 : Nibble).toNat + 1 ≤ (1 : Nibble).toNat ∧ t.pc.toNat = s.i.toNat + (0 : Nibble).toNat :=
  ⟨_, by decide, by decide, rfl, by decide, rfl⟩

theorem witness_DrawTogglesSpritePixels :
    ((0 : Nibble).toNat = 0 ∨ (State.reset.setI 0xFFFF).i.toNat + (0 : Nibble).toNat ≤ 4096) ∧
      ((15 : Nibble).toNat = 0 ∨ (State.reset.setI 4081).i.toNat + (15 : Nibble).toNat ≤ 4096) := by decide

theorem witness_DrawFaultsArePrecise :
    ((15 : Nibble).toNat ≠ 0 ∧ 4096 < (State.reset.setI 4082).i.toNat + (15 : Nibble).toNat) ∧
      ((1 : Nibble).toNat ≠ 0 ∧ 4096 < (State.reset.setI 4096).i.toNat + (1 : Nibble).toNat) := by decide

theorem witness_DrawIsSelfInverse :
    ∃ t, ((1 : Nibble).toNat = 0 ∨ State.reset.i.toNat + (1 : Nibble).toNat ≤ 4096) ∧
      exec (.drw 0 1 1) State.reset = .next t ∧ t.readV 0 = State.reset.readV 0 ∧
      t.readV 1 = State.reset.readV 1 := ⟨_, by decide, rfl, by decide, by decide⟩

theorem witness_SetPixelPrimitive :
    ¬(64 ≤ 63 ∧ 0 ≤ 31) ∧ ¬(0 ≤ 63 ∧ 32 ≤ 31) ∧ (63 ≤ 63 ∧ 31 ≤ 31) ∧ ¬(62 = 63 ∧ 31 = 31) := by decide

theorem witness_KeySkips :
    ((State.reset.setV 0 15).readV 0).toNat ≤ 15 ∧ 15 < ((State.reset.setV 0 16).readV 0).toNat := by decide

theorem witness_StepTakesNextEvent :
    State.reset.schedule = [] ∧ (nextIs (.keyUp 3)).schedule = .keyUp 3 :: [] := by decide

/-- Both timers at 1, also with a key wait on; and a halted machine. -/
theorem witness_TimerStep :
    ((((State.reset.setDt 1).setSt 1).setWaiting true).fault = none) ∧
      (State.reset.setFault (some .stackUnderflow)).fault ≠ none := by decide

theorem witness_KeyEvents :
    (State.reset.setWaiting true).fault = none ∧ (14 : Nibble) ≠ 15 ∧
      (State.reset.setFault (some .stackUnderflow)).fault ≠ none := by decide

theorem witness_LoadCopiesImage :
    (nextIs (.load (List.replicate 3584 1))).nextEvent = .load (List.replicate 3584 1) ∧
      (nextIs (.load (List.replicate 3584 1))).fault = none ∧
      (List.replicate 3584 (1 : Byte)).length ≤ 3584 ∧ Memory.wf State.reset.mem ∧
      3584 < (List.replicate 3585 (1 : Byte)).length :=
  ⟨rfl, rfl, by rw [List.length_replicate], by decide, by rw [List.length_replicate]; omega⟩

/-- A halted, waiting machine with a reset next, and another after it. -/
theorem witness_ResetEstablishesTable :
    let s := ((State.reset.setFault (some .stackOverflow)).setWaiting true).setSchedule [.reset, .reset]
    s.nextEvent = .reset ∧ ∃ t, step s = .next t ∧ t.nextEvent = .reset := ⟨rfl, _, rfl, rfl⟩

/-- The last byte of the last glyph. -/
theorem witness_PowerOnIsReset : 15 < 16 ∧ 4 < 5 := by decide

/-- The boundary of the invariant: a full stack of the highest return addresses, and PC at its bound. -/
theorem witness_StepKeepsInvariant :
    ((State.reset.setStack (List.replicate 24 4096)).setPc 0x10FE).Inv ∧
      (∃ t, step (State.reset.setStack [4096]) = .next t) ∧
      ∃ c t, step (State.reset.setPc 0x10FE) = .fault (.halted c t) :=
  ⟨⟨by decide, by decide, fun w h => (List.mem_replicate.mp h).2 ▸ by decide, by decide⟩, ⟨_, rfl⟩, ⟨_, _, rfl⟩⟩

theorem witness_ReachableStatesLegal :
    ∃ t, Host.Core.run Sys2Proof.core 2
      { State.reset with schedule := [.load [0xC0, 0xFF], .tick], supply := [0x5A] } = .next t := ⟨_, rfl⟩

theorem witness_FrameOfEveryInstruction :
    (∃ t, exec (.addReg 1 2) State.reset = .next t) ∧ Elem.pc ∉ writesOf (.addReg 1 2) ∧
      (2 : Nibble) ∉ regWritesOf (.addReg 1 2) ∧ 0x2FF < effAddr (State.reset.setI 0x300) 0 ∧
      effAddr (State.reset.setI 0x300) 0 + storeWidthOf (.ldB 9) ≤ 0x303 :=
  ⟨⟨_, rfl⟩, by decide, by decide, by decide, by decide⟩

theorem witness_FlagRegisterDiscipline :
    (∃ t, exec (.addImm 0 1) State.reset = .next t) ∧ regVF ∉ regWritesOf (.addImm 0 1) ∧
      (∃ t, exec (.drw 0 1 15) State.reset = .next t) ∧ raisesAt State.reset (.drw 0 1 15) = none ∧
      raisesAt State.reset (.shl 15 0) = none :=
  ⟨⟨_, rfl⟩, by decide, ⟨_, rfl⟩, by decide, by decide⟩

/-- Each of the three cases happens. -/
theorem witness_OnlySoundEventsEmit :
    (∃ t, step ((State.reset.setV 3 1).withFetchWord 16 0xF318) = .next t ∧ t.outputs = [.startSound]) ∧
      (∃ t, step ((nextIs .advanceTimers).setSt 1) = .next t ∧ t.outputs = [.stopSound]) ∧
      ∃ t, step State.reset = .next t ∧ t.outputs = [] := ⟨⟨_, rfl, rfl⟩, ⟨_, rfl, rfl⟩, ⟨_, rfl, rfl⟩⟩

/-- The wait begins, and ends by a press, by a release and by a reset. -/
theorem witness_WaitingDiscipline :
    (∃ t, step (State.reset.withFetchWord 16 0xF10A) = .next t ∧ t.waiting = true) ∧
      ∀ e ∈ ([.keyDown 10, .keyUp 3, .reset] : List Event),
        ((match step ((nextIs e).setWaiting true) with | .next t => t.waiting | _ => true) = false) :=
  ⟨⟨_, rfl, rfl⟩, by decide⟩

theorem witness_KeyLatchDiscipline :
    ∃ t, step (nextIs (.keyDown 15)) = .next t ∧ t.readKey 15 ≠ (nextIs (.keyDown 15)).readKey 15 :=
  ⟨_, rfl, by decide⟩

theorem witness_DrawRequiredLivesOneTick :
    (∃ t, step State.reset = .next t ∧ State.reset.nextEvent = .tick) ∧
      ∃ t, step (nextIs .advanceTimers) = .next t ∧ (nextIs .advanceTimers).nextEvent ≠ .tick ∧
        (nextIs .advanceTimers).nextEvent ≠ .reset := ⟨⟨_, rfl, by decide⟩, ⟨_, rfl, by decide, by decide⟩⟩

theorem witness_TickHasThreeOutcomes :
    State.reset.schedule = [] ∧ tickOutcome State.reset = .executed ∧
      tickOutcome (State.reset.setPc 4095) = .faulted ∧ tickOutcome (State.reset.setWaiting true) = .blocked ∧
      tickOutcome (State.reset.setFault (some .stackOverflow)) = .blocked := by decide


end Sys2Proof.Tests
end

section
/-! The statements of 00_scope.md: what event a step runs. -/

namespace Sys2Proof.Machine

/-- With an empty schedule the interpreter ticks (log 1). -/
theorem State.nextEvent_idle {s : State} (h : s.schedule = []) : s.nextEvent = .tick := by
  simp [State.nextEvent, h]

/-- The head of the schedule comes next (log 1). -/
theorem State.nextEvent_cons {s : State} {e : Event} {rest : List Event} (h : s.schedule = e :: rest) :
    s.nextEvent = e := by
  simp [State.nextEvent, h]

/-- A step settles the next event, run at the state less that event (R6, R256). -/
theorem step_eq_settle_runEvent (s : State) :
    step s = settle (runEvent s.nextEvent (s.setSchedule s.schedule.tail)) :=
  congrArg settle (runNext_eq s)

/-- Settles O9: `step_eq_settle_runEvent`, with the two cases of the schedule. -/
theorem stepTakesNextEvent : Obligations.StepTakesNextEvent := fun s =>
  ⟨step_eq_settle_runEvent s, State.nextEvent_idle, fun _ _ => State.nextEvent_cons⟩

end Sys2Proof.Machine
end

section
/-! The statements of 10_state.md, the layer of facts: what an instruction writes (R47), element by
element; every later proof cites these and does not unfold an instruction again. -/

namespace Sys2Proof.Machine

/-! ### The elements an instruction writes (R47) -/

/-- The state `s` with the elements of `l` taken from `t`. -/
def State.withElems (s : State) (l : List Elem) (t : State) : State where
  v := if Elem.v ∈ l then t.v else s.v
  pc := if Elem.pc ∈ l then t.pc else s.pc
  i := if Elem.i ∈ l then t.i else s.i
  dt := if Elem.dt ∈ l then t.dt else s.dt
  st := if Elem.st ∈ l then t.st else s.st
  key := if Elem.key ∈ l then t.key else s.key
  waiting := if Elem.waiting ∈ l then t.waiting else s.waiting
  drawReq := if Elem.drawReq ∈ l then t.drawReq else s.drawReq
  fault := if Elem.fault ∈ l then t.fault else s.fault
  stack := if Elem.stack ∈ l then t.stack else s.stack
  pix := if Elem.pix ∈ l then t.pix else s.pix
  mem := if Elem.mem ∈ l then t.mem else s.mem
  outputs := if Elem.outputs ∈ l then t.outputs else s.outputs
  supply := if Elem.random ∈ l then t.supply else s.supply
  draws := if Elem.random ∈ l then t.draws else s.draws
  schedule := if Elem.schedule ∈ l then t.schedule else s.schedule

/-- An element outside the list is as in `s`. -/
theorem Elem.same_withElems {e : Elem} {l : List Elem} (h : e ∉ l) (s t : State) :
    e.same s (s.withElems l t) := by
  cases e <;> simp [Elem.same, State.withElems, State.readV, State.readKey, State.byteAt, h]

/-- What RET does (R140): the head of the stack to PC, or the fault of an empty stack. -/
theorem exec_ret_cases (ignored : BitVec 8) (s : State) :
    (∃ w rest, s.stack = w :: rest ∧ exec (.ret ignored) s = .next ((s.setStack rest).setPc w)) ∨
      exec (.ret ignored) s = raise .stackUnderflow s := by
  rcases pop_cases s with ⟨w, rest, hs, e⟩ | ⟨-, e⟩
  · exact .inl ⟨w, rest, hs, by simp only [exec, execRet, e]⟩
  · exact .inr (by simp only [exec, execRet, e])

/-- What CALL does (R142): PC pushed and the target to PC, or the fault of a full stack. -/
theorem exec_call_cases (nnn : Addr12) (s : State) :
    (s.stack.length < Config.stackDepth ∧
        exec (.call nnn) s = .next ((s.setStack (s.pc :: s.stack)).setPc (immAddr nnn))) ∨
      exec (.call nnn) s = raise .stackOverflow s := by
  rcases push_cases s.pc s with ⟨hd, e⟩ | ⟨-, e⟩
  · exact .inl ⟨hd, by simp only [exec, execCall, e]⟩
  · exact .inr (by simp only [exec, execCall, e])

/-- The state after an instruction differs from the one before it at most in the elements of its row
of R47. -/
theorem exec_eq_withElems {i : Instr} {s t : State} (h : exec i s = .next t) :
    t = s.withElems (writesOf i) t := by
  cases i
  case ret ignored =>
    rcases exec_ret_cases ignored s with ⟨w, rest, -, e⟩ | e <;> (cases h.symm.trans e; rfl)
  case call nnn =>
    rcases exec_call_cases nnn s with ⟨-, e⟩ | e <;> (cases h.symm.trans e; rfl)
  case seImm | sneImm | seReg | sneReg =>
    cases h; rw [skipIf_eq]; rfl
  case drw x y n =>
    obtain ⟨d, v, r, f, e⟩ := drawRows_frame (startColumn (s.readV x)) n.toNat (startRow (s.readV y))
      (effAddr s 0) false s
    cases h.symm.trans e; rfl
  case skp | sknp =>
    simp only [exec, execSkp, execSknp, skipIf_eq] at h
    split at h <;> (cases h; rfl)
  case ldStVx =>
    simp only [exec, execLdStVx] at h
    split at h <;> (cases h; rfl)
  case ldF =>
    simp only [exec, execLdF] at h
    split at h <;> (cases h; rfl)
  case ldB | storeRegs =>
    cases h.symm.trans (storeBytes_next _ _ _); rfl
  case loadRegs x =>
    obtain ⟨v, e, -⟩ := loadInto_next (effAddr s 0) (regGroup x) s
    cases h.symm.trans e; rfl
  all_goals cases h; rfl

/-- An element outside the row of R47 reads as before. -/
theorem exec_same {i : Instr} {s t : State} (h : exec i s = .next t) {e : Elem} (he : e ∉ writesOf i) :
    e.same s t := by
  rw [exec_eq_withElems h]; exact Elem.same_withElems he s t

/-- The instructions that store are runs of stores from I upward, as long as their store width (R193, R195). -/
theorem exec_stores {i : Instr} (hm : Elem.mem ∈ writesOf i) (s : State) :
    ∃ bs, bs.length = storeWidthOf i ∧ exec i s = storeBytes (effAddr s 0) bs s := by
  cases i
  case ldB x => exact ⟨bcdDigits (s.readV x), rfl, rfl⟩
  case storeRegs x => exact ⟨(regGroup x).map s.readV, by simp [storeWidthOf], rfl⟩
  all_goals simp [writesOf] at hm

/-- The list of memory cells is as before, or has the stored bytes that are in the address space. -/
theorem exec_mem_cases {i : Instr} {s t : State} (h : exec i s = .next t) :
    t.mem = s.mem ∨ ∃ bs : List Byte, bs.length = storeWidthOf i ∧
      t.mem = Memory.writeList s.mem (effAddr s 0) (bs.take (Config.memSize - effAddr s 0)) := by
  by_cases hm : Elem.mem ∈ writesOf i
  · obtain ⟨bs, hlen, e⟩ := exec_stores hm s
    rw [storeBytes_next, h] at e
    cases e
    exact .inr ⟨bs, hlen, rfl⟩
  · exact .inl ((congrArg State.mem (exec_eq_withElems h)).trans (if_neg hm))

/-- A byte outside those an instruction stores reads as before. -/
theorem exec_byteAt_outside {i : Instr} {s t : State} (h : exec i s = .next t) {p : Nat}
    (hp : p < effAddr s 0 ∨ effAddr s 0 + storeWidthOf i ≤ p) : t.byteAt p = s.byteAt p := by
  unfold State.byteAt
  rcases exec_mem_cases h with e | ⟨bs, hlen, e⟩ <;> rw [e]
  refine Memory.read_writeList_outside (hp.imp_right fun hp => ?_) _
  rw [List.length_take]; omega

/-- What the call stack is after an instruction (R30, R31): the same, popped by RET, or pushed by CALL. -/
theorem exec_stack_cases {i : Instr} {s t : State} (h : exec i s = .next t) :
    t.stack = s.stack ∨ (∃ w, s.stack = w :: t.stack) ∨
      (s.stack.length < Config.stackDepth ∧ t.stack = s.pc :: s.stack) := by
  by_cases hs : Elem.stack ∈ writesOf i
  · cases i
    case ret ignored =>
      rcases exec_ret_cases ignored s with ⟨w, rest, hst, e⟩ | e <;> cases h.symm.trans e
      · exact .inr (.inl ⟨w, hst⟩)
      · exact .inl rfl
    case call nnn =>
      rcases exec_call_cases nnn s with ⟨hd, e⟩ | e <;> cases h.symm.trans e
      · exact .inr (.inr ⟨hd, rfl⟩)
      · exact .inl rfl
    all_goals simp [writesOf] at hs
  · exact .inl ((congrArg State.stack (exec_eq_withElems h)).trans (if_neg hs))

/-- What PC is after an instruction (R140 to R148, R230, R231): the same, one instruction skipped, an
immediate target, an indexed target, or a return address. -/
theorem exec_pc_cases {i : Instr} {s t : State} (h : exec i s = .next t) :
    (∃ c : Bool, t.pc = if c then s.pc + 2 else s.pc) ∨ (∃ nnn, t.pc = immAddr nnn) ∨
      (∃ nnn, t.pc = indexedTarget s nnn) ∨ t.pc ∈ s.stack := by
  by_cases hp : Elem.pc ∈ writesOf i
  · cases i
    case ret ignored =>
      rcases exec_ret_cases ignored s with ⟨w, rest, hst, e⟩ | e <;> cases h.symm.trans e
      · exact .inr (.inr (.inr (by simp [hst])))
      · exact .inl ⟨false, rfl⟩
    case call nnn =>
      rcases exec_call_cases nnn s with ⟨-, e⟩ | e <;> cases h.symm.trans e
      · exact .inr (.inl ⟨nnn, rfl⟩)
      · exact .inl ⟨false, rfl⟩
    case jp nnn => cases h; exact .inr (.inl ⟨nnn, rfl⟩)
    case jpV0 nnn => cases h; exact .inr (.inr (.inl ⟨nnn, rfl⟩))
    case seImm | sneImm | seReg | sneReg => cases h; rw [skipIf_eq]; exact .inl ⟨_, rfl⟩
    case skp | sknp =>
      simp only [exec, execSkp, execSknp, skipIf_eq] at h
      split at h <;> cases h
      · exact .inl ⟨false, rfl⟩
      · exact .inl ⟨_, rfl⟩
    all_goals simp [writesOf] at hp
  · exact .inl ⟨false, (congrArg State.pc (exec_eq_withElems h)).trans (if_neg hp)⟩

/-- The five ALU instructions that write VF write their result, then their flag (R164). -/
theorem exec_writesResultFlag {i : Instr}
    (hi : ∃ x y, i = .addReg x y ∨ i = .sub x y ∨ i = .shr x y ∨ i = .subn x y ∨ i = .shl x y) (s : State) :
    ∃ x r f, exec i s = .next (writeResultFlag x r f s) := by
  obtain ⟨x, y, rfl | rfl | rfl | rfl | rfl⟩ := hi <;> exact ⟨x, _, _, rfl⟩

/-- A register that is no destination of the instruction keeps its value (R20, R21). -/
theorem exec_readV_other {i : Instr} {s t : State} (h : exec i s = .next t) {r : Nibble}
    (hr : r ∉ regWritesOf i) : t.readV r = s.readV r := by
  by_cases hv : Elem.v ∈ writesOf i
  · cases i
    case ldImm | addImm | ldReg | orReg | andReg | xorReg | ldVxDt | rnd =>
      cases h; exact State.readV_setV_ne _ _ (by simpa [regWritesOf] using hr)
    case addReg | sub | shr | subn | shl =>
      simp only [regWritesOf, List.mem_cons, List.not_mem_nil, or_false, not_or] at hr
      cases h; exact readV_writeResultFlag_other hr.1 hr.2 _ _ _
    case drw x y n =>
      obtain ⟨d, b, q, e⟩ := drawRows_next (startColumn (s.readV x)) n.toNat (startRow (s.readV y))
        (effAddr s 0) false s
      cases h.symm.trans e
      split
      · rfl
      · exact State.readV_setV_ne s _ (by simpa [regWritesOf] using hr)
    case loadRegs x =>
      obtain ⟨v, e, hout⟩ := loadInto_next (effAddr s 0) (regGroup x) s
      cases h.symm.trans e; exact hout r hr
    all_goals simp [writesOf] at hv
  · exact exec_same h hv r

end Sys2Proof.Machine
end

section
/-! The statements of 10_state.md about the invariant (R24, R30, R44): reset has it, every step keeps it,
so every reachable state has it. -/

namespace Sys2Proof.Machine

/-! ### An instruction keeps the invariant -/

/-- A target `nnn` lies below 4096 (R141). -/
theorem immAddr_lt (nnn : Addr12) : (immAddr nnn).toNat < 4096 := by
  rw [immAddr, BitVec.toNat_setWidth]; omega

/-- `V0 + nnn` is at most 255 + 4095 (R24, R148). -/
theorem indexedTarget_le (s : State) (nnn : Addr12) : (indexedTarget s nnn).toNat ≤ 0x10FE := by
  rw [indexedTarget, immAddr, zext16, BitVec.toNat_add, BitVec.toNat_setWidth, BitVec.toNat_setWidth]
  omega

/-- A stored run, cut at the end of the address space, keeps the canonical form (R63). -/
theorem Memory.writeList_take_wf {m : Memory} (hm : Memory.wf m) (a : Nat) (bs : List Byte) :
    Memory.wf (Memory.writeList m a (bs.take (Config.memSize - a))) := by
  by_cases ha : a ≤ Config.memSize
  · exact Memory.writeList_wf hm (by rw [List.length_take]; omega)
  · rw [show Config.memSize - a = 0 by omega, List.take_zero]; exact hm

/-- The bound on PC after an instruction, from that on the advanced PC and on the return addresses (R24). -/
theorem exec_pc_le {i : Instr} {s t : State} (h : exec i s = .next t) (hpc : s.pc.toNat ≤ 4096)
    (hret : ∀ w ∈ s.stack, w.toNat ≤ 4096) : t.pc.toNat ≤ 0x10FE := by
  rcases exec_pc_cases h with ⟨c, e⟩ | ⟨nnn, e⟩ | ⟨nnn, e⟩ | hw
  · cases c <;> simp [e] <;> omega
  · have := immAddr_lt nnn; rw [e]; omega
  · exact e ▸ indexedTarget_le s nnn
  · have := hret _ hw; omega

/-- An instruction keeps the invariant, begun as the fetch leaves it: with PC at most 4096 (R121). -/
theorem exec_inv {i : Instr} {s t : State} (hs : s.Inv) (hpc : s.pc.toNat ≤ 4096)
    (h : exec i s = .next t) : t.Inv where
  memWf := by
    rcases exec_mem_cases h with e | ⟨bs, -, e⟩ <;> rw [e]
    · exact hs.memWf
    · exact Memory.writeList_take_wf hs.memWf _ bs
  depth := by
    rcases exec_stack_cases h with e | ⟨w, e⟩ | ⟨hd, e⟩
    · exact e ▸ hs.depth
    · have := hs.depth; rw [e, List.length_cons] at this; omega
    · rw [e, List.length_cons]; omega
  returns := by
    rcases exec_stack_cases h with e | ⟨w, e⟩ | ⟨-, e⟩
    · exact e ▸ hs.returns
    · exact fun u hu => hs.returns u (e ▸ List.mem_cons_of_mem w hu)
    · rw [e]; exact List.forall_mem_cons.mpr ⟨hpc, hs.returns⟩
  pcRange := exec_pc_le h hpc hs.returns

/-! ### Every event and every step keeps it -/

/-- The invariant speaks of memory, the stack and PC only. -/
theorem State.Inv.congr {s t : State} (hs : s.Inv) (hm : t.mem = s.mem) (hk : t.stack = s.stack)
    (hp : t.pc = s.pc) : t.Inv :=
  ⟨hm ▸ hs.memWf, hk ▸ hs.depth, hk ▸ hs.returns, hp ▸ hs.pcRange⟩

/-- Settles O51: empty memory list, empty stack, PC 0x200. -/
theorem resetHasInvariant : Obligations.ResetHasInvariant :=
  ⟨State.reset_mem_wf, Nat.zero_le _, List.forall_mem_nil _, by decide⟩

/-- The state an outcome carries, as a next state or inside a fault, has the property. -/
def carries (P : State → Prop) : Outcome → Prop
  | .next t => P t
  | .fault (.halted _ t) => P t
  | .refused _ => True

/-- Settling an outcome does not change the state it carries (R256). -/
theorem carries_settle {P : State → Prop} {o : Outcome} (h : carries P o) : carries P (settle o) := by
  cases o with
  | next t =>
    cases hf : t.fault with
    | none => rw [settle_next_live hf]; exact h
    | some c => rw [settle_next_halted hf]; exact h
  | fault r => exact h
  | refused r => exact h

/-- Running a word keeps the invariant (R123, R124). -/
theorem execute_carries_inv {s : State} (hs : s.Inv) (hpc : s.pc.toNat ≤ 4096) (op : Word) :
    carries State.Inv (execute op s) := by
  rcases execute_cases op s with ⟨i, -, e⟩ | ⟨-, -, e⟩ <;> rw [e]
  · obtain ⟨t, ht⟩ := exec_next i s
    rw [ht]; exact exec_inv hs hpc ht
  · exact hs.congr rfl rfl rfl

/-- A tick keeps the invariant: a fetch succeeds only where it advances PC to at most 4096 (R120 to R124). -/
theorem tickLive_carries_inv {s : State} (hs : s.Inv) : carries State.Inv (tickLive s) := by
  rcases tickLive_cases s with ⟨-, e⟩ | ⟨-, hpc, e⟩ | ⟨-, -, e⟩ | ⟨-, -, e⟩ <;> rw [e]
  · exact hs.congr rfl rfl rfl
  · have hadv : (s.pc + 2).toNat ≤ 4096 := by simp at hpc ⊢; omega
    have hs' : (advancePc (s.setDrawReq false)).Inv := ⟨hs.memWf, hs.depth, hs.returns, hadv.trans (by decide)⟩
    exact execute_carries_inv hs' hadv _
  · exact hs.congr rfl rfl rfl
  · exact hs.congr rfl rfl rfl

/-- The state of a reset event meets the invariant, whatever the state before (R290). -/
theorem resetEvent_inv (s : State) : (resetEvent s).Inv := resetHasInvariant.congr rfl rfl rfl

/-- An event of a machine that is not halted keeps the invariant. -/
theorem runLive_carries_inv {s : State} (hs : s.Inv) (e : Event) : carries State.Inv (runLive e s) := by
  cases e with
  | tick => exact tickLive_carries_inv hs
  | advanceTimers =>
    obtain ⟨d, t, o, e⟩ := advanceTimersLive_frame s
    simp only [runLive, e]
    exact hs.congr rfl rfl rfl
  | keyDown k => exact hs.congr rfl rfl rfl
  | keyUp k => exact hs.congr rfl rfl rfl
  | load bytes =>
    simp only [runLive, loadLive]
    split
    next hlen =>
      have hm := Memory.writeList_wf hs.memWf (a := Config.progBase) (bs := bytes) (by simp at hlen ⊢; omega)
      exact ⟨hm, hs.depth, hs.returns, hs.pcRange⟩
    next => trivial
  | reset => exact resetEvent_inv s

/-- An event of a halted machine keeps the invariant (R257). -/
theorem runHalted_carries_inv {s : State} (hs : s.Inv) (e : Event) : carries State.Inv (runHalted e s) := by
  cases e
  case reset => exact resetEvent_inv s
  all_goals exact hs

/-- Every step keeps the invariant, in the state it answers or in the one its fault carries. -/
theorem step_carries_inv {s : State} (hs : s.Inv) : carries State.Inv (step s) := by
  rw [step_eq_settle_runEvent]
  apply carries_settle
  have hs' : (s.setSchedule s.schedule.tail).Inv := hs.congr rfl rfl rfl
  unfold runEvent
  split
  · exact runLive_carries_inv hs' _
  · exact runHalted_carries_inv hs' _

/-- Settles O50: `step_carries_inv`, read at the two outcomes. -/
theorem stepKeepsInvariant : Obligations.StepKeepsInvariant := by
  intro s t hs
  have ht := step_carries_inv hs
  exact ⟨fun h => by rwa [h] at ht, fun c h => by rwa [h] at ht⟩

/-! ### Runs -/

/-- What every step that answers a next state keeps, every run that has not stopped keeps. -/
theorem run_keeps {P : State → Prop} (hstep : ∀ s t, P s → step s = .next t → P t) (n : Nat) :
    ∀ s t : State, P s → Host.Core.run core n s = .next t → P t := by
  induction n with
  | zero => intro s t hs h; cases h; exact hs
  | succ n ih =>
    intro s t hs h
    cases hu : step s with
    | next u => exact ih u t (hstep s u hs hu) (by simpa [Host.Core.run, core, hu] using h)
    | fault r => simp [Host.Core.run, core, hu] at h
    | refused r => simp [Host.Core.run, core, hu] at h

/-- Settles O52: the invariant and a clear latch hold at reset and are kept by every step (`run_keeps`). -/
theorem reachableStatesLegal : Obligations.ReachableStatesLegal := fun events bytes n t h =>
  run_keeps (P := fun s => s.Inv ∧ s.fault = none)
    (fun s u hs hu => ⟨(stepKeepsInvariant s u hs.1).1 hu, (step_next hu).1⟩) n
    { State.reset with schedule := events, supply := bytes } t
    ⟨resetHasInvariant.congr rfl rfl rfl, rfl⟩ h

end Sys2Proof.Machine
end

section
/-! The statements of 10_state.md about reset (R44, R290 to R292). -/

namespace Sys2Proof.Machine

/-- A reset event gives every element its value of the reset table, from any state (R44, R290). -/
theorem resetEvent_isReset (s : State) : (resetEvent s).IsReset where
  regs := State.reset_readV
  pc := rfl
  index := rfl
  delay := rfl
  sound := rfl
  stack := rfl
  keys := State.reset_readKey
  waiting := rfl
  drawReq := rfl
  pixels := pixelAt_blank
  font _ _ := rfl
  zeros _ ha := List.getD_eq_default _ _ ha
  fault := rfl

/-- A reset event comes through in any state, halted or not, and leaves no fault (R257, R290). -/
theorem step_of_reset {s : State} (h : s.nextEvent = .reset) :
    step s = .next (resetEvent (s.setSchedule s.schedule.tail)) := by
  have hrun (u : State) : runEvent .reset u = .next (resetEvent u) := by
    cases hf : u.fault with
    | none => exact runEvent_live hf .reset
    | some c => exact runEvent_halted hf .reset
  rw [step_eq_settle_runEvent, h, hrun]
  exact settle_next_live rfl

/-- Settles O48: `step_of_reset` and `resetEvent_isReset`; the second reset finds the table already there. -/
theorem resetEstablishesTable : Obligations.ResetEstablishesTable := fun _ h =>
  ⟨_, step_of_reset h, resetEvent_isReset _, rfl, rfl, rfl, rfl, step_of_reset⟩

/-- Settles O49: power-on is what a reset event makes of it (R291). -/
theorem powerOnIsReset : Obligations.PowerOnIsReset :=
  ⟨resetEvent_isReset State.reset, rfl, fun _ _ _ _ => rfl⟩

end Sys2Proof.Machine
end

section
/-! The statements of 10_state.md about what instructions write: the frame (R47) and VF (R21). -/

namespace Sys2Proof.Machine

/-- Settles O53: `exec_same`, `exec_readV_other` and `exec_byteAt_outside`. -/
theorem frameOfEveryInstruction : Obligations.FrameOfEveryInstruction := fun _ _ _ h =>
  ⟨fun _ => exec_same h, fun _ => exec_readV_other h, fun _ => exec_byteAt_outside h⟩

/-- A flag is 0 or 1 (R21, D11). -/
theorem flagByte_zero_or_one (b : Bool) : flagByte b = 0 ∨ flagByte b = 1 := by
  cases b
  · exact .inl rfl
  · exact .inr rfl

/-- A DRW that raises nothing has drawn every row, written the collision to VF and set DrawRequired (R216). -/
theorem exec_drw_completes {x y n : Nibble} {s t : State} (h : exec (.drw x y n) s = .next t)
    (hr : raisesAt s (.drw x y n) = none) :
    ∃ col, t.readV regVF = flagByte col ∧ t.drawReq = true := by
  have hin : n.toNat = 0 ∨ effAddr s 0 + n.toNat ≤ 4096 := by
    simp only [raisesAt, firstOutOfRange, memSize_eq, ite_eq_right_iff, reduceCtorEq, imp_false] at hr
    omega
  obtain ⟨d, col, e, -⟩ := drawRows_inRange (startColumn (s.readV x)) n.toNat (startRow (s.readV y)) 0 false s hin
  cases h.symm.trans e
  exact ⟨col, State.readV_setV_same _ _ _, rfl⟩

/-- Settles O55: the five ALU instructions write the flag last; DRW writes the collision when it completes. -/
theorem flagRegisterDiscipline : Obligations.FlagRegisterDiscipline := by
  intro i s t h
  refine ⟨exec_readV_other h, fun hr hi => ?_⟩
  obtain ⟨b, hb⟩ : ∃ b, t.readV 15 = flagByte b := by
    rcases hi with hi | ⟨x, y, n, rfl⟩
    · obtain ⟨x, r, f, e⟩ := exec_writesResultFlag hi s
      cases h.symm.trans e
      exact ⟨f, readV_writeResultFlag_vf x r f s⟩
    · obtain ⟨col, hv, -⟩ := exec_drw_completes h hr
      exact ⟨col, hv⟩
  exact hb ▸ flagByte_zero_or_one b

end Sys2Proof.Machine
end

section
/-! The statements of 10_state.md about the waiting flag (R29), the key latch (R28) and DrawRequired (R36):
which step can change them. -/

namespace Sys2Proof.Machine

/-! ### The instruction a step executes -/

/-- A step that executes an instruction is not waiting for a key (R120). -/
theorem State.executes_not_waiting {s : State} {i : Instr} (h : s.executes = some i) : s.waiting = false := by
  unfold State.executes at h
  split at h
  next hc => obtain ⟨-, -, hw, -⟩ := hc; exact hw
  next => cases h

/-- `waiting` is changed by LD Vx, K only (R29). -/
theorem exec_waiting_cases {i : Instr} {s t : State} (h : exec i s = .next t) :
    t.waiting = s.waiting ∨ ∃ x, i = .ldVxK x := by
  by_cases hw : Elem.waiting ∈ writesOf i
  · cases i
    case ldVxK x => exact .inr ⟨x, rfl⟩
    all_goals simp [writesOf] at hw
  · exact .inl (exec_same h hw)

/-- No instruction writes the key latch (R126). -/
theorem key_notMem_writesOf (i : Instr) : Elem.key ∉ writesOf i := by
  cases i <;> simp [writesOf]

/-- DrawRequired is changed by CLS and DRW only (R36, D14). -/
theorem exec_drawReq_cases {i : Instr} {s t : State} (h : exec i s = .next t) :
    t.drawReq = s.drawReq ∨ (∃ ign, i = .cls ign) ∨ ∃ x y n, i = .drw x y n := by
  by_cases hd : Elem.drawReq ∈ writesOf i
  · cases i
    case cls ign => exact .inr (.inl ⟨ign, rfl⟩)
    case drw x y n => exact .inr (.inr ⟨x, y, n, rfl⟩)
    all_goals simp [writesOf] at hd
  · exact .inl (exec_same h hd)

/-- A DRW after which no fault is latched raised none. -/
theorem raisesAt_drw_eq_none {x y n : Nibble} {s t : State} (h : exec (.drw x y n) s = .next t)
    (ht : t.fault = none) : raisesAt s (.drw x y n) = none := by
  obtain ⟨d, b, q, e⟩ := drawRows_next (startColumn (s.readV x)) n.toNat (startRow (s.readV y))
    (effAddr s 0) false s
  cases h.symm.trans e
  exact (Option.or_eq_none_iff.mp ht).1

/-- From a cleared DrawRequired, an instruction that completes leaves it set exactly when it is CLS or DRW
(R305). -/
theorem exec_drawReq_iff {i : Instr} {s t : State} (h : exec i s = .next t) (hs : s.drawReq = false)
    (ht : t.fault = none) :
    t.drawReq = true ↔ (∃ ign, i = .cls ign) ∨ ∃ x y n, i = .drw x y n := by
  constructor
  · intro hd
    exact (exec_drawReq_cases h).resolve_left fun e => by simp [hs, hd] at e
  · rintro (⟨ign, rfl⟩ | ⟨x, y, n, rfl⟩)
    · cases h; rfl
    · obtain ⟨-, -, hd⟩ := exec_drw_completes h (raisesAt_drw_eq_none h ht)
      exact hd

/-! ### The step -/

/-- The timer step leaves the waiting flag (R262). -/
theorem advanceTimersLive_waiting (s : State) : (advanceTimersLive s).waiting = s.waiting := by
  obtain ⟨_, _, _, e⟩ := advanceTimersLive_frame s; rw [e]

/-- The timer step leaves the key latch (R262). -/
theorem advanceTimersLive_readKey (s : State) (k : Nibble) :
    (advanceTimersLive s).readKey k = s.readKey k := by
  obtain ⟨_, _, _, e⟩ := advanceTimersLive_frame s; rw [e]; rfl

/-- The timer step leaves DrawRequired (R262). -/
theorem advanceTimersLive_drawReq (s : State) : (advanceTimersLive s).drawReq = s.drawReq := by
  obtain ⟨_, _, _, e⟩ := advanceTimersLive_frame s; rw [e]

/-- What the waiting flag is after a step (R29, R272): as before, unless the step executed LD Vx, K, or its
event was one of those that clear it. -/
theorem step_waiting_cases {s t : State} (h : step s = .next t) :
    t.waiting = s.waiting ∨ (s.waiting = false ∧ ∃ x, s.executes = some (.ldVxK x)) ∨
      (t.waiting = false ∧
        (s.nextEvent = .reset ∨ ∃ k, s.nextEvent = .keyDown k ∨ s.nextEvent = .keyUp k)) := by
  rcases step_next h with ⟨-, ⟨hn, rfl⟩ | ⟨-, ⟨-, i, hi, he⟩ | ⟨-, -, -, rfl⟩ | ⟨-, rfl⟩ | ⟨k, hk, rfl⟩ |
    ⟨k, hk, rfl⟩ | ⟨_, -, -, rfl⟩⟩⟩
  · exact .inr (.inr ⟨rfl, .inl hn⟩)
  · rcases exec_waiting_cases he with e | ⟨x, rfl⟩
    · exact .inl e
    · exact .inr (.inl ⟨State.executes_not_waiting hi, x, hi⟩)
  · exact .inl rfl
  · exact .inl (advanceTimersLive_waiting _)
  · exact .inr (.inr ⟨rfl, .inr ⟨k, .inl hk⟩⟩)
  · exact .inr (.inr ⟨rfl, .inr ⟨k, .inr hk⟩⟩)
  · exact .inl rfl

/-- Settles O57: `step_waiting_cases`, read in both directions. -/
theorem waitingDiscipline : Obligations.WaitingDiscipline := by
  intro s t h
  rcases step_waiting_cases h with e | ⟨hs, hx⟩ | ⟨ht, he⟩
  · exact ⟨fun hs ht => by simp [e, hs] at ht, fun hs ht => by simp [e, hs] at ht⟩
  · exact ⟨fun _ _ => hx, fun hs' => by simp [hs] at hs'⟩
  · exact ⟨fun _ ht' => by simp [ht] at ht', fun _ _ => he⟩

/-- A key event leaves the latch bits of the other keys (R264, R265). -/
theorem keyEventLive_readKey_ne {j k : Nibble} (h : k ≠ j) (down : Bool) (s : State) :
    (keyEventLive j down s).readKey k = s.readKey k :=
  State.readKey_setKey_ne s down h

/-- Settles O58, over the ways a step can go (`step_next`): no instruction writes the latch, and a key event
writes the bit of its own key. -/
theorem keyLatchDiscipline : Obligations.KeyLatchDiscipline := by
  intro s t k h hne
  rcases step_next h with ⟨-, ⟨hn, -⟩ | ⟨-, ⟨-, i, -, he⟩ | ⟨-, -, -, rfl⟩ | ⟨-, rfl⟩ | ⟨j, hj, rfl⟩ |
    ⟨j, hj, rfl⟩ | ⟨_, -, -, rfl⟩⟩⟩
  · exact .inl hn
  · exact absurd (exec_same he (key_notMem_writesOf i) k) hne
  · exact absurd rfl hne
  · exact absurd (advanceTimersLive_readKey _ k) hne
  · obtain rfl : k = j := not_imp_comm.mp (fun hk => keyEventLive_readKey_ne hk true _) hne
    exact .inr (.inl hj)
  · obtain rfl : k = j := not_imp_comm.mp (fun hk => keyEventLive_readKey_ne hk false _) hne
    exact .inr (.inr hj)
  · exact absurd rfl hne

/-- Settles O59, over the ways a step can go (`step_next`): the fetch clears DrawRequired, the instruction
sets it or not (`exec_drawReq_iff`), and a blocked tick executes none. -/
theorem drawRequiredLivesOneTick : Obligations.DrawRequiredLivesOneTick := by
  intro s t h
  rcases step_next h with ⟨ht, ⟨hn, -⟩ | ⟨-, ⟨hn, i, hi, he⟩ | ⟨hn, -, hi, rfl⟩ | ⟨hn, rfl⟩ | ⟨k, hn, rfl⟩ |
    ⟨k, hn, rfl⟩ | ⟨_, hn, -, rfl⟩⟩⟩
  · simp [hn]
  · refine ⟨fun _ => ?_, fun hne => absurd hn hne⟩
    simpa [hi] using exec_drawReq_iff he rfl ht
  · exact ⟨fun _ => by simp [hi], fun hne => absurd hn hne⟩
  · exact ⟨fun e => by simp [hn] at e, fun _ _ => advanceTimersLive_drawReq _⟩
  all_goals exact ⟨fun e => by simp [hn] at e, fun _ _ => rfl⟩

end Sys2Proof.Machine
end

section
/-! The statements of 20_memory.md: what a store leaves in memory and what a fetch reads there. -/

namespace Sys2Proof.Machine

/-- `LD [I], Vx` inside the address space is one run of writes at I, and no fault (R195). -/
theorem exec_storeRegs_inRange {x : Nibble} {s : State} (hr : s.i.toNat + x.toNat < Config.memSize) :
    exec (.storeRegs x) s =
      .next (s.setMem (Memory.writeList s.mem (effAddr s 0) ((regGroup x).map s.readV))) :=
  storeBytes_inRange (by rw [List.length_map, regGroup_length]; exact hr) s

/-- After `LD [I], Vx` the byte at I + k is Vk, for every k up to x (R195). -/
theorem exec_storeRegs_byteAt {x k : Nibble} {s t : State} (hm : Memory.wf s.mem)
    (hr : s.i.toNat + x.toNat < Config.memSize) (h : exec (.storeRegs x) s = .next t)
    (hk : k.toNat ≤ x.toNat) : t.byteAt (s.i.toNat + k.toNat) = s.readV k := by
  cases h.symm.trans (exec_storeRegs_inRange hr)
  have hlen : k.toNat < ((regGroup x).map s.readV).length := by simpa using Nat.lt_succ_of_le hk
  rw [State.byteAt_setMem, effAddr, Nat.add_zero, Memory.read_writeList_inside hm.1 _ hlen,
    List.getElem_map, regGroup_get, BitVec.ofNat_toNat, BitVec.setWidth_eq]

/-- A two-byte read inside the address space joins the two bytes, high first (R64, R66). -/
theorem memReadWord_inRange {a : Nat} (h : a + 1 < Config.memSize) (s : State) :
    memReadWord a s = .ok (wordOfBytes (s.byteAt a) (s.byteAt (a + 1))) := by
  rcases memReadWord_cases a s with ⟨-, e⟩ | ⟨h', -⟩ | ⟨h', -⟩
  · exact e
  all_goals omega

/-- Settles O36: the fetch joins the bytes at PC and PC + 1, and the store has put Vk and Vk+1 there. -/
theorem storeSeenByNextFetch : Obligations.StoreSeenByNextFetch := by
  intro x k s t hm hi h hk hpc
  have hr : s.i.toNat + x.toNat < Config.memSize := Nat.lt_succ_of_le hi
  have hsucc : (k + 1).toNat = k.toNat + 1 := BitVec.toNat_add_of_lt (by have := x.isLt; simp; omega)
  have hhi : t.byteAt t.pc.toNat = s.readV k := by
    rw [hpc]; exact exec_storeRegs_byteAt hm hr h (by omega)
  have hlo : t.byteAt (t.pc.toNat + 1) = s.readV (k + 1) := by
    rw [hpc, Nat.add_assoc, ← hsucc]; exact exec_storeRegs_byteAt hm hr h (by omega)
  rw [memReadWord_inRange (by omega), hhi, hlo]

end Sys2Proof.Machine
end

section
/-! The statements of 30_encoding.md, the layer of facts: what the fields of a word under a row's mask are,
the word a format puts together, and each family's decoder said once (R92, R94, R95, R102). -/

namespace Sys2Proof

/-! ### The fields of a masked word -/

/-- A word under the mask 0xF000 has the family of its match. -/
theorem opFamily_of_and_F000 {op v : Word} (h : op &&& 0xF000#16 = v) : opFamily op = opFamily v := by
  rw [← h, and_F000, opFamily_formatNNN]

/-- A word under the mask 0xF00F has the family and the low nibble of its match. -/
theorem fields_of_and_F00F {op v : Word} (h : op &&& 0xF00F#16 = v) :
    opFamily op = opFamily v ∧ opN op = opN v := by
  rw [← h, and_F00F, opFamily_formatXYN, opN_formatXYN]
  exact ⟨rfl, rfl⟩

/-- A word under the mask 0xF0FF has the family and the low byte of its match. -/
theorem fields_of_and_F0FF {op v : Word} (h : op &&& 0xF0FF#16 = v) :
    opFamily op = opFamily v ∧ opKK op = opKK v := by
  rw [← h, and_F0FF, opFamily_formatXKK, opKK_formatXKK]
  exact ⟨rfl, rfl⟩

/-- The low nibble of `nnn` is `n`: the nibble that tells RET from CLS (R96). -/
theorem opNNN_low (op : Word) : (opNNN op).extractLsb' 0 4 = opN op := by
  apply BitVec.eq_of_toNat_eq
  rw [BitVec.extractLsb'_toNat, opNNN_toNat, opN_toNat, Nat.shiftRight_zero]
  exact Nat.mod_mod_of_dvd _ (by decide)

/-! ### The word a format puts together -/

theorem formatNNN_of_family {op : Word} {f : Nibble} (hf : opFamily op = f) :
    formatNNN f (opNNN op) = op := hf ▸ formatNNN_fields op

theorem formatXKK_of_fields {op : Word} {f : Nibble} {kk : Byte} (hf : opFamily op = f)
    (hk : opKK op = kk) : formatXKK f (opX op) kk = op := hf ▸ hk ▸ formatXKK_fields op

theorem formatXYN_of_fields {op : Word} {f n : Nibble} (hf : opFamily op = f) (hn : opN op = n) :
    formatXYN f (opX op) (opY op) n = op := hf ▸ hn ▸ formatXYN_fields op

theorem formatRet_of_fields {op : Word} (hf : opFamily op = 0x0) (hn : opN op = 0xE) :
    formatRet (opMid op) = op := by
  apply BitVec.eq_of_toNat_eq
  have hf' : op.toNat / 4096 % 16 = 0 := by rw [← opFamily_toNat, hf]; rfl
  have hn' : op.toNat % 16 = 14 := by rw [← opN_toNat, hn]; rfl
  have := op.isLt
  rw [formatRet_toNat, opMid_toNat]
  omega

/-! ### An instruction with the operands of a word (R92) -/

/-- The instruction of the same row whose operands are the fields of the word. -/
def Instr.withFields (op : Word) : Instr → Instr
  | .ret _ => .ret (opMid op)
  | .cls _ => .cls (opNNN op)
  | .jp _ => .jp (opNNN op)
  | .call _ => .call (opNNN op)
  | .seImm _ _ => .seImm (opX op) (opKK op)
  | .sneImm _ _ => .sneImm (opX op) (opKK op)
  | .seReg _ _ => .seReg (opX op) (opY op)
  | .ldImm _ _ => .ldImm (opX op) (opKK op)
  | .addImm _ _ => .addImm (opX op) (opKK op)
  | .ldReg _ _ => .ldReg (opX op) (opY op)
  | .orReg _ _ => .orReg (opX op) (opY op)
  | .andReg _ _ => .andReg (opX op) (opY op)
  | .xorReg _ _ => .xorReg (opX op) (opY op)
  | .addReg _ _ => .addReg (opX op) (opY op)
  | .sub _ _ => .sub (opX op) (opY op)
  | .shr _ _ => .shr (opX op) (opY op)
  | .subn _ _ => .subn (opX op) (opY op)
  | .shl _ _ => .shl (opX op) (opY op)
  | .sneReg _ _ => .sneReg (opX op) (opY op)
  | .ldI _ => .ldI (opNNN op)
  | .jpV0 _ => .jpV0 (opNNN op)
  | .rnd _ _ => .rnd (opX op) (opKK op)
  | .drw _ _ _ => .drw (opX op) (opY op) (opN op)
  | .skp _ => .skp (opX op)
  | .sknp _ => .sknp (opX op)
  | .ldVxDt _ => .ldVxDt (opX op)
  | .ldVxK _ => .ldVxK (opX op)
  | .ldDtVx _ => .ldDtVx (opX op)
  | .ldStVx _ => .ldStVx (opX op)
  | .addI _ => .addI (opX op)
  | .ldF _ => .ldF (opX op)
  | .ldB _ => .ldB (opX op)
  | .storeRegs _ => .storeRegs (opX op)
  | .loadRegs _ => .loadRegs (opX op)

@[simp] theorem Instr.row_withFields (i : Instr) (op : Word) : (i.withFields op).row = i.row := by
  cases i <;> rfl

/-- The operands of the encoded word are the instruction's own: no bit of an encoding is dropped. -/
theorem Instr.withFields_encode (i : Instr) : i.withFields (encode i) = i := by
  cases i <;> simp [withFields, encode]

/-- A word of CLS's row with RET's low nibble is one of RET's row (R96). -/
theorem inRow_ret {op : Word} (hm : op &&& 0xF000#16 = 0x0000) (hn : opN op = 0xE) :
    op &&& 0xF00F#16 = 0x000E := by
  rw [and_F00F, opFamily_of_and_F000 hm, hn]; rfl

/-- The fields of a word of a row make a well-formed instruction, unless the row is CLS's and the word is
RET's (R96). -/
theorem Instr.wellFormed_withFields {i : Instr} {op : Word} (hm : op &&& i.row.mask = i.row.value)
    (hret : i.row = (cls 0).row → op &&& 0xF00F#16 ≠ 0x000E) : (i.withFields op).wellFormed = true := by
  cases i
  case cls ignored =>
    have hn : opN op ≠ 0xE := fun hn => hret rfl (inRow_ret hm hn)
    simpa [withFields, wellFormed, opNNN_low] using hn
  all_goals rfl

/-- Every encoded word lies in its instruction's row (R95). -/
theorem encode_inRow (i : Instr) : encode i &&& i.row.mask = i.row.value := by
  cases i
  case ret => exact Laws.EncodesInRow.ret _
  case cls => exact Laws.EncodesInRow.cls _
  case jp => exact Laws.EncodesInRow.jp _
  case call => exact Laws.EncodesInRow.call _
  case seImm => exact Laws.EncodesInRow.seImm _ _
  case sneImm => exact Laws.EncodesInRow.sneImm _ _
  case seReg => exact Laws.EncodesInRow.seReg _ _
  case ldImm => exact Laws.EncodesInRow.ldImm _ _
  case addImm => exact Laws.EncodesInRow.addImm _ _
  case ldReg => exact Laws.EncodesInRow.ldReg _ _
  case orReg => exact Laws.EncodesInRow.orReg _ _
  case andReg => exact Laws.EncodesInRow.andReg _ _
  case xorReg => exact Laws.EncodesInRow.xorReg _ _
  case addReg => exact Laws.EncodesInRow.addReg _ _
  case sub => exact Laws.EncodesInRow.sub _ _
  case shr => exact Laws.EncodesInRow.shr _ _
  case subn => exact Laws.EncodesInRow.subn _ _
  case shl => exact Laws.EncodesInRow.shl _ _
  case sneReg => exact Laws.EncodesInRow.sneReg _ _
  case ldI => exact Laws.EncodesInRow.ldI _
  case jpV0 => exact Laws.EncodesInRow.jpV0 _
  case rnd => exact Laws.EncodesInRow.rnd _ _
  case drw => exact Laws.EncodesInRow.drw _ _ _
  case skp => exact Laws.EncodesInRow.skp _
  case sknp => exact Laws.EncodesInRow.sknp _
  case ldVxDt => exact Laws.EncodesInRow.ldVxDt _
  case ldVxK => exact Laws.EncodesInRow.ldVxK _
  case ldDtVx => exact Laws.EncodesInRow.ldDtVx _
  case ldStVx => exact Laws.EncodesInRow.ldStVx _
  case addI => exact Laws.EncodesInRow.addI _
  case ldF => exact Laws.EncodesInRow.ldF _
  case ldB => exact Laws.EncodesInRow.ldB _
  case storeRegs => exact Laws.EncodesInRow.storeRegs _
  case loadRegs => exact Laws.EncodesInRow.loadRegs _

/-! ### The decoder, family by family (R94) -/

theorem decode_of_family0 {op : Word} (hf : opFamily op = 0x0) : decode op = decodeFamily0 op := by
  rw [decode, hf]; rfl

theorem decode_of_family5 {op : Word} (hf : opFamily op = 0x5) : decode op = decodeFamily5 op := by
  rw [decode, hf]; rfl

theorem decode_of_family8 {op : Word} (hf : opFamily op = 0x8) : decode op = decodeFamily8 op := by
  rw [decode, hf]; rfl

theorem decode_of_family9 {op : Word} (hf : opFamily op = 0x9) : decode op = decodeFamily9 op := by
  rw [decode, hf]; rfl

theorem decode_of_familyE {op : Word} (hf : opFamily op = 0xE) : decode op = decodeFamilyE op := by
  rw [decode, hf]; rfl

theorem decode_of_familyF {op : Word} (hf : opFamily op = 0xF) : decode op = decodeFamilyF op := by
  rw [decode, hf]; rfl

/-- A word of a row decodes to the row's instruction with the word's fields (R95). The second hypothesis is
about CLS alone: the words of its row with RET's low nibble are RET's (R96). -/
theorem decode_inRow (i : Instr) {op : Word} (h : op &&& i.row.mask = i.row.value)
    (hwf : (i.withFields op).wellFormed = true) : decode op = .ok (i.withFields op) := by
  cases i
  all_goals dsimp only [Instr.row] at h
  case ret =>
    obtain ⟨hf, hn⟩ := fields_of_and_F00F h
    exact (decode_of_family0 hf).trans (if_pos hn)
  case cls =>
    have hn : opN op ≠ 0xE := by simpa [Instr.withFields, Instr.wellFormed, opNNN_low] using hwf
    exact (decode_of_family0 (opFamily_of_and_F000 h)).trans (if_neg hn)
  case seReg =>
    obtain ⟨hf, hn⟩ := fields_of_and_F00F h
    exact (decode_of_family5 hf).trans (if_pos hn)
  case sneReg =>
    obtain ⟨hf, hn⟩ := fields_of_and_F00F h
    exact (decode_of_family9 hf).trans (if_pos hn)
  case ldReg | orReg | andReg | xorReg | addReg | sub | shr | subn | shl =>
    obtain ⟨hf, hn⟩ := fields_of_and_F00F h
    rw [decode_of_family8 hf, decodeFamily8, hn]; rfl
  case skp | sknp =>
    obtain ⟨hf, hk⟩ := fields_of_and_F0FF h
    rw [decode_of_familyE hf, decodeFamilyE, hk]; rfl
  case ldVxDt | ldVxK | ldDtVx | ldStVx | addI | ldF | ldB | storeRegs | loadRegs =>
    obtain ⟨hf, hk⟩ := fields_of_and_F0FF h
    rw [decode_of_familyF hf, decodeFamilyF, hk]; rfl
  all_goals rw [decode, opFamily_of_and_F000 h]; rfl

/-! ### What the decoder can answer (R94, R102) -/

/-- The fields of the words of the table of illegal words (R102). -/
def IllegalWord (op : Word) : Prop :=
  (opFamily op = 0x5 ∧ opN op ≠ 0x0) ∨
  (opFamily op = 0x8 ∧ opN op ∈ ([0x8, 0x9, 0xA, 0xB, 0xC, 0xD, 0xF] : List Nibble)) ∨
  (opFamily op = 0x9 ∧ opN op ≠ 0x0) ∨
  (opFamily op = 0xE ∧ opKK op ∉ ([0x9E, 0xA1] : List Byte)) ∨
  (opFamily op = 0xF ∧
    opKK op ∉ ([0x07, 0x0A, 0x15, 0x18, 0x1E, 0x29, 0x33, 0x55, 0x65] : List Byte))

/-- A decoder's answer on the word is right: the one well-formed instruction whose word it is, or, exactly on
the words of the table of illegal words, the rejection that names it. -/
def RightAnswer (op : Word) : Except DecodeError Instr → Prop
  | .ok i => i.wellFormed = true ∧ encode i = op ∧ ¬ IllegalWord op
  | .error e => e = .unrecognized op ∧ IllegalWord op

theorem decodeFamily0_right {op : Word} (hf : opFamily op = 0x0) : RightAnswer op (decodeFamily0 op) := by
  have hl : ¬ IllegalWord op := by simp [IllegalWord, hf]
  unfold decodeFamily0
  split
  next hn => exact ⟨rfl, formatRet_of_fields hf hn, hl⟩
  next hn => exact ⟨by simpa [Instr.wellFormed, opNNN_low] using hn, formatNNN_of_family hf, hl⟩

theorem decodeFamily5_right {op : Word} (hf : opFamily op = 0x5) : RightAnswer op (decodeFamily5 op) := by
  unfold decodeFamily5
  split
  next hn => exact ⟨rfl, formatXYN_of_fields hf hn, by simp [IllegalWord, hf, hn]⟩
  next hn => exact ⟨rfl, .inl ⟨hf, hn⟩⟩

theorem decodeFamily9_right {op : Word} (hf : opFamily op = 0x9) : RightAnswer op (decodeFamily9 op) := by
  unfold decodeFamily9
  split
  next hn => exact ⟨rfl, formatXYN_of_fields hf hn, by simp [IllegalWord, hf, hn]⟩
  next hn => exact ⟨rfl, .inr (.inr (.inl ⟨hf, hn⟩))⟩

theorem decodeFamily8_right {op : Word} (hf : opFamily op = 0x8) : RightAnswer op (decodeFamily8 op) := by
  unfold decodeFamily8
  split
  case h_10 =>
    refine ⟨rfl, .inr (.inl ⟨hf, ?_⟩)⟩
    simp only [imp_false, List.mem_cons, List.not_mem_nil, or_false] at *
    bv_omega
  all_goals
    next hn =>
      replace hn := (BitVec.toNat_eq_nat.mp hn).2
      exact ⟨rfl, formatXYN_of_fields hf hn, by simp [IllegalWord, hf, hn]⟩

theorem decodeFamilyE_right {op : Word} (hf : opFamily op = 0xE) : RightAnswer op (decodeFamilyE op) := by
  unfold decodeFamilyE
  split_ifs with h1 h2
  case neg => exact ⟨rfl, by simp [IllegalWord, hf, h1, h2]⟩
  all_goals exact ⟨rfl, formatXKK_of_fields hf ‹_›, by simp [IllegalWord, *]⟩

theorem decodeFamilyF_right {op : Word} (hf : opFamily op = 0xF) : RightAnswer op (decodeFamilyF op) := by
  unfold decodeFamilyF
  split_ifs
  case neg => exact ⟨rfl, by simp [IllegalWord, *]⟩
  all_goals exact ⟨rfl, formatXKK_of_fields hf ‹_›, by simp [IllegalWord, *]⟩

/-- What the decoder can answer, once for all words. -/
theorem decode_right (op : Word) : RightAnswer op (decode op) := by
  unfold decode
  split
  case h_1 hf => exact decodeFamily0_right (BitVec.eq_of_toNat_eq hf)
  case h_6 hf => exact decodeFamily5_right (BitVec.eq_of_toNat_eq hf)
  case h_9 hf => exact decodeFamily8_right (BitVec.eq_of_toNat_eq hf)
  case h_10 hf => exact decodeFamily9_right (BitVec.eq_of_toNat_eq hf)
  case h_15 hf => exact decodeFamilyE_right (BitVec.eq_of_toNat_eq hf)
  case h_16 =>
    simp only [imp_false] at *
    exact decodeFamilyF_right (by bv_omega)
  case h_2 hf | h_3 hf | h_11 hf | h_12 hf =>
    replace hf := (BitVec.toNat_eq_nat.mp hf).2
    exact ⟨rfl, formatNNN_of_family hf, by simp [IllegalWord, hf]⟩
  case h_4 hf | h_5 hf | h_7 hf | h_8 hf | h_13 hf =>
    replace hf := (BitVec.toNat_eq_nat.mp hf).2
    exact ⟨rfl, formatXKK_of_fields hf rfl, by simp [IllegalWord, hf]⟩
  case h_14 hf =>
    replace hf := (BitVec.toNat_eq_nat.mp hf).2
    exact ⟨rfl, formatXYN_of_fields hf rfl, by simp [IllegalWord, hf]⟩

/-- What an accepted word stands for (R95). -/
theorem decode_ok {op : Word} {i : Instr} (h : decode op = .ok i) :
    i.wellFormed = true ∧ encode i = op ∧ ¬ IllegalWord op := by
  simpa [h, RightAnswer] using decode_right op

/-- What a rejected word is (R102). -/
theorem decode_error {op : Word} {e : DecodeError} (h : decode op = .error e) :
    e = .unrecognized op ∧ IllegalWord op := by
  simpa [h, RightAnswer] using decode_right op

end Sys2Proof
end

section
/-! The statements of 30_encoding.md: decoder and encoder are inverse, the decoder is the opcode map's (R95,
R107), the illegal words (R102), the ignored bits (R103). -/

namespace Sys2Proof.Machine

/-- Settles O1: the encoded word lies in its row (`encode_inRow`), so it decodes to the row's instruction with
the word's fields (`decode_inRow`), which are the instruction's own. -/
theorem decodeOfEncode : Obligations.DecodeOfEncode := by
  intro i hwf
  have hi := i.withFields_encode
  exact (decode_inRow i (encode_inRow i) (hi.symm ▸ hwf)).trans (congrArg _ hi)

/-- Settles O2: `decode_ok`. -/
theorem encodeOfDecode : Obligations.EncodeOfDecode := by
  intro op i h
  obtain ⟨hwf, he, -⟩ := decode_ok h
  exact ⟨hwf, he⟩

/-- Every instruction's row stands in the opcode map (R95). -/
theorem row_mem_opcodeMap (i : Instr) : i.row ∈ opcodeMap := by
  cases i <;> dsimp only [Instr.row] <;> decide

/-- The first row a word matches is an instruction's, and it is CLS's only when the word is not RET's, whose
row stands before it (R107). -/
theorem firstRow_eq_some {op : Word} {r : OpcodeRow} (h : firstRow op = some r) :
    ∃ i : Instr, i.row = r ∧ op &&& i.row.mask = i.row.value ∧ (i.withFields op).wellFormed = true := by
  obtain ⟨i, -, rfl⟩ := List.mem_map.mp (List.mem_of_find?_eq_some h)
  have hm : op &&& i.row.mask = i.row.value := beq_iff_eq.mp (List.find?_some (p := rowMatches op) h)
  refine ⟨i, rfl, hm, Instr.wellFormed_withFields hm fun hcls hret => ?_⟩
  have hfirst : firstRow op = some (Instr.ret 0).row := List.find?_cons_of_pos (beq_iff_eq.mpr hret)
  rw [hfirst, hcls] at h
  exact absurd h (by decide)

/-- Settles O3: a word that matches a row decodes to it (`decode_inRow`), and a word that decodes is the word
of its instruction, so it matches that row (`encode_inRow`). -/
theorem decoderFollowsOpcodeMap : Obligations.DecoderFollowsOpcodeMap := by
  intro op
  cases hr : firstRow op with
  | some r =>
    obtain ⟨i, rfl, hm, hwf⟩ := firstRow_eq_some hr
    rw [decode_inRow i hm hwf]
    exact congrArg some (i.row_withFields op)
  | none =>
    cases hd : decode op with
    | error e => rfl
    | ok i =>
      obtain ⟨-, he, -⟩ := decode_ok hd
      have hm : rowMatches op i.row = true := beq_iff_eq.mpr (he ▸ encode_inRow i)
      exact absurd hm (List.find?_eq_none.mp hr _ (row_mem_opcodeMap i))

/-- Settles O4: `decode_inRow` at each row. -/
theorem maskedWordsDecode : Obligations.MaskedWordsDecode := fun _ =>
  ⟨fun h => decode_inRow (.ret 0) h rfl,
   fun h hret => decode_inRow (.cls 0) h (Instr.wellFormed_withFields h fun _ => hret),
   fun h => decode_inRow (.jp 0) h rfl,
   fun h => decode_inRow (.call 0) h rfl,
   fun h => decode_inRow (.seImm 0 0) h rfl,
   fun h => decode_inRow (.sneImm 0 0) h rfl,
   fun h => decode_inRow (.seReg 0 0) h rfl,
   fun h => decode_inRow (.ldImm 0 0) h rfl,
   fun h => decode_inRow (.addImm 0 0) h rfl,
   fun h => decode_inRow (.ldReg 0 0) h rfl,
   fun h => decode_inRow (.orReg 0 0) h rfl,
   fun h => decode_inRow (.andReg 0 0) h rfl,
   fun h => decode_inRow (.xorReg 0 0) h rfl,
   fun h => decode_inRow (.addReg 0 0) h rfl,
   fun h => decode_inRow (.sub 0 0) h rfl,
   fun h => decode_inRow (.shr 0 0) h rfl,
   fun h => decode_inRow (.subn 0 0) h rfl,
   fun h => decode_inRow (.shl 0 0) h rfl,
   fun h => decode_inRow (.sneReg 0 0) h rfl,
   fun h => decode_inRow (.ldI 0) h rfl,
   fun h => decode_inRow (.jpV0 0) h rfl,
   fun h => decode_inRow (.rnd 0 0) h rfl,
   fun h => decode_inRow (.drw 0 0 0) h rfl,
   fun h => decode_inRow (.skp 0) h rfl,
   fun h => decode_inRow (.sknp 0) h rfl,
   fun h => decode_inRow (.ldVxDt 0) h rfl,
   fun h => decode_inRow (.ldVxK 0) h rfl,
   fun h => decode_inRow (.ldDtVx 0) h rfl,
   fun h => decode_inRow (.ldStVx 0) h rfl,
   fun h => decode_inRow (.addI 0) h rfl,
   fun h => decode_inRow (.ldF 0) h rfl,
   fun h => decode_inRow (.ldB 0) h rfl,
   fun h => decode_inRow (.storeRegs 0) h rfl,
   fun h => decode_inRow (.loadRegs 0) h rfl⟩

/-- Settles O5: `decode_ok` and `decode_error`. -/
theorem illegalWordsExactly : Obligations.IllegalWordsExactly := by
  refine fun op => ⟨⟨?_, fun hl => ?_⟩, fun e he => (decode_error he).1⟩
  · rintro ⟨e, he⟩
    exact (decode_error he).2
  · cases hd : decode op with
    | error e => exact ⟨e, rfl⟩
    | ok i =>
      obtain ⟨-, -, hlegal⟩ := decode_ok hd
      exact absurd hl hlegal

/-- Settles O6, by evaluation of the decoder on the eight strings. -/
theorem printedWordsDecode : Obligations.PrintedWordsDecode := by
  unfold Obligations.PrintedWordsDecode
  decide

/-! ### Executing the words with ignored bits (R103) -/

/-- Executing a legal word is the meaning of its instruction (R123). -/
theorem execute_of_decode {op : Word} {i : Instr} (h : decode op = .ok i) (s : State) :
    execute op s = exec i s := by
  rw [execute, h]

/-- Family 0 looks at nothing but whether the low nibble is 0xE (R96). -/
theorem execute_of_family0 {op : Word} (hf : opFamily op = 0x0) (s : State) :
    execute op s = if opN op = 0xE then execRet s else execCls s := by
  split
  next hn => exact execute_of_decode ((decode_of_family0 hf).trans (if_pos hn)) s
  next hn => exact execute_of_decode ((decode_of_family0 hf).trans (if_neg hn)) s

/-- SHR does not look at `y` (D9). -/
theorem execute_shr {op : Word} (hf : opFamily op = 0x8) (hn : opN op = 0x6) (s : State) :
    execute op s = execShr (opX op) s :=
  execute_of_decode (i := .shr _ (opY op)) (by rw [decode_of_family8 hf, decodeFamily8, hn]; rfl) s

/-- SHL does not look at `y` (D9). -/
theorem execute_shl {op : Word} (hf : opFamily op = 0x8) (hn : opN op = 0xE) (s : State) :
    execute op s = execShl (opX op) s :=
  execute_of_decode (i := .shl _ (opY op)) (by rw [decode_of_family8 hf, decodeFamily8, hn]; rfl) s

/-- `LD Vx, K` does not look at `x` (D12). -/
theorem execute_ldVxK {op : Word} (hf : opFamily op = 0xF) (hk : opKK op = 0x0A) (s : State) :
    execute op s = execLdVxK s :=
  execute_of_decode (i := .ldVxK (opX op)) (by rw [decode_of_familyF hf, decodeFamilyF, hk]; rfl) s

/-- Settles O7: what each of these words executes, as a function of the bits that count. -/
theorem ignoredBitsAffectNothing : Obligations.IgnoredBitsAffectNothing := by
  refine fun op op' s => ⟨fun hf hf' hiff => ?_, fun hf hf' hx hn hop => ?_, fun hf hf' hk hk' => ?_⟩
  · rw [execute_of_family0 hf, execute_of_family0 hf']
    exact if_congr hiff rfl rfl
  · rcases hop with h6 | hE
    · rw [execute_shr hf h6, execute_shr hf' (hn ▸ h6), hx]
    · rw [execute_shl hf hE, execute_shl hf' (hn ▸ hE), hx]
  · rw [execute_ldVxK hf hk, execute_ldVxK hf' hk']

end Sys2Proof.Machine
end

section
/-! The statements of 40_tick_fetch_decode.md: the ways a tick can go (R120 to R124) and its three outcomes
(R127). -/

namespace Sys2Proof.Machine

/-! ### The step of a tick -/

/-- A tick of a machine that is not halted, taken off the schedule and settled (R120). -/
theorem step_of_tick {s : State} (h : s.nextEvent = .tick) (hf : s.fault = none) :
    step s = settle (tickLive (s.setSchedule s.schedule.tail)) := by
  rw [step_eq_settle_runEvent, h, runEvent_live (by simpa using hf)]
  rfl

/-- A tick of a machine waiting for a key clears DrawRequired and does nothing more (R120). -/
theorem step_of_waiting {s : State} (h : s.nextEvent = .tick) (hf : s.fault = none) (hw : s.waiting = true) :
    step s = .next ((s.setSchedule s.schedule.tail).setDrawReq false) := by
  rw [step_of_tick h hf]
  exact (congrArg settle (if_pos hw)).trans (settle_next_live hf)

/-- A tick whose two bytes exist executes the word at PC on the state after the fetch (R121). -/
theorem step_of_fetch {s : State} (h : s.nextEvent = .tick) (hf : s.fault = none) (hw : s.waiting = false)
    (hpc : s.pc.toNat + 1 < Config.memSize) : step s = settle (execute s.wordAtPc s.afterFetch) := by
  rw [step_of_tick h hf]
  rcases tickLive_cases (s.setSchedule s.schedule.tail) with ⟨h1, -⟩ | ⟨-, -, e⟩ | ⟨-, h1, -⟩ | ⟨-, h1, -⟩
  · simp [hw] at h1
  · rw [e, afterFetch_eq]; rfl
  all_goals rw [State.setSchedule_pc] at h1; omega

/-- A raise is settled to the fault outcome that carries the state with its cause latched (R256). -/
theorem settle_raise (c : FaultCause) (s : State) :
    settle (raise c s) = .fault (.halted c (s.setFault (some c))) :=
  settle_next_halted rfl

/-- A fetch that reaches beyond the last address raises the lowest address out of range (R122). -/
theorem tickLive_of_fetch_outOfRange {s : State} (hw : s.waiting = false) (hpc : Config.memSize ≤ s.pc.toNat + 1) :
    tickLive s = raise (.addressOutOfRange (max s.pc.toNat Config.memSize)) (s.setDrawReq false) := by
  rcases tickLive_cases s with ⟨h, -⟩ | ⟨-, h, -⟩ | ⟨-, h, e⟩ | ⟨-, h, e⟩
  · simp [hw] at h
  · omega
  · rw [e, h, max_eq_right (by omega)]
  · rw [e, max_eq_left h]

/-- Settles O8: `step_of_fetch`, with the word at PC executed as its instruction (`execute_of_decode`). -/
theorem stepRunsDecodedInstruction : Obligations.StepRunsDecodedInstruction := by
  intro s i h hf hw hpc hd
  have hd' : decode s.wordAtPc = .ok i := hd
  constructor
  · rw [State.executes, if_pos ⟨h, hf, hw, hpc⟩, hd']
  · rw [step_of_fetch h hf hw hpc, execute_of_decode hd']

/-- Settles O10: `tickLive_of_fetch_outOfRange`, settled to its fault outcome. -/
theorem fetchFaults : Obligations.FetchFaults := by
  intro s h hf hw hpc
  have e := tickLive_of_fetch_outOfRange (s := s.setSchedule s.schedule.tail) hw (Nat.succ_le_succ hpc)
  rw [step_of_tick h hf, e]
  exact settle_raise _ _

/-- Settles O11: the fetch succeeds (`step_of_fetch`) and the word it executes is no instruction's. -/
theorem illegalWordFaults : Obligations.IllegalWordFaults := by
  intro s e h hf hw hpc hd
  rw [step_of_fetch h hf hw hpc, execute, hd]
  exact settle_raise _ _

/-! ### The three outcomes (R127) -/

/-- A tick of a halted machine is blocked. -/
theorem tickOutcome_of_halted {s : State} {c : FaultCause} (hf : s.fault = some c) :
    tickOutcome s = .blocked := by
  simp [tickOutcome, hf]

/-- A tick of a waiting machine is blocked. -/
theorem tickOutcome_of_waiting {s : State} (hw : s.waiting = true) : tickOutcome s = .blocked := by
  simp [tickOutcome, hw]

/-- A tick that is not blocked is faulted or executed as the latch is set after it or not. -/
theorem tickOutcome_of_tickLive {s t : State} (hf : s.fault = none) (hw : s.waiting = false)
    (h : tickLive s = .next t) : tickOutcome s = if t.fault.isSome then .faulted else .executed := by
  have hrun : runEvent .tick s = .next t := (runEvent_live hf .tick).trans h
  simp [tickOutcome, hf, hw, hrun]

/-- Settles O12: `step_of_waiting` and `tickOutcome_of_waiting`. -/
theorem waitingTickOnlyClearsDrawReq : Obligations.WaitingTickOnlyClearsDrawReq := fun _ h hf hw =>
  ⟨step_of_waiting h hf hw, tickOutcome_of_waiting hw⟩

/-- With no event scheduled there is none to take off. -/
theorem State.setSchedule_idle {s : State} (h : s.schedule = []) : s.setSchedule s.schedule.tail = s := by
  rw [h, List.tail_nil, ← h]
  rfl

/-- A halted machine with no event scheduled reports its fault again, at the same state (R257). -/
theorem step_idle_of_halted {s : State} {c : FaultCause} (h : s.schedule = []) (hf : s.fault = some c) :
    step s = .fault (.halted c s) := by
  rw [step, runNext_idle h, runEvent_halted hf]
  exact settle_next_halted hf

/-- A tick of a machine neither halted nor waiting executed an instruction and answers a next state, or it
faulted and answers a fault outcome (R127). -/
theorem tickOutcome_step_cases {s : State} (h : s.schedule = []) (hf : s.fault = none) (hw : s.waiting = false) :
    (tickOutcome s = .executed ∧ ∃ i t, s.executes = some i ∧ step s = .next t) ∨
      (tickOutcome s = .faulted ∧ ∃ c t, step s = .fault (.halted c t)) := by
  have hn := State.nextEvent_idle h
  have hstep := step_of_tick hn hf
  have htick := tickLive_executes hn hf hw
  rw [State.setSchedule_idle h] at hstep htick
  have hfaulted {c t} (e : tickLive s = .next t) (ht : t.fault = some c) :
      tickOutcome s = .faulted ∧ ∃ c t, step s = .fault (.halted c t) :=
    ⟨by simp [tickOutcome_of_tickLive hf hw e, ht], c, t, by rw [hstep, e, settle_next_halted ht]⟩
  rcases htick with ⟨i, hi, e⟩ | ⟨-, c, t, e, ht⟩
  · obtain ⟨t, hx⟩ := exec_next i s.afterFetch
    rw [hx] at e
    cases ht : t.fault with
    | none =>
      exact .inl ⟨by simp [tickOutcome_of_tickLive hf hw e, ht], i, t, hi, by rw [hstep, e, settle_next_live ht]⟩
    | some c => exact .inr (hfaulted e ht)
  · exact .inr (hfaulted e ht)

/-- Settles O60, over the machine halted, waiting, or neither (`tickOutcome_step_cases`). -/
theorem tickHasThreeOutcomes : Obligations.TickHasThreeOutcomes := by
  intro s h
  rcases Option.eq_none_or_eq_some s.fault with hf | ⟨c, hf⟩
  · rcases Bool.eq_false_or_eq_true s.waiting with hw | hw
    · have hstep := step_of_waiting (State.nextEvent_idle h) hf hw
      rw [State.setSchedule_idle h] at hstep
      rw [tickOutcome_of_waiting hw]
      exact ⟨nofun, nofun, fun _ => .inr ⟨hf, hw, hstep⟩⟩
    · rcases tickOutcome_step_cases h hf hw with ⟨e, hx⟩ | ⟨e, hx⟩ <;> rw [e]
      · exact ⟨fun _ => hx, nofun, nofun⟩
      · exact ⟨nofun, fun _ => hx, nofun⟩
  · rw [tickOutcome_of_halted hf]
    exact ⟨nofun, nofun, fun _ => .inl ⟨c, hf, step_idle_of_halted h hf⟩⟩

end Sys2Proof.Machine
end

section
/-! The statements of 41_flow.md: where the jumps, CALL, RET and the four skips leave PC and the stack (R140 to
R149). -/

namespace Sys2Proof.Machine

/-! ### Jumps (R141, R148) -/

/-- A target `nnn` is zero-extended (R141). -/
theorem immAddr_toNat (nnn : Addr12) : (immAddr nnn).toNat = nnn.toNat :=
  BitVec.toNat_setWidth_of_le (by decide)

/-- The sum `V0 + nnn` never wraps (R148). -/
theorem indexedTarget_toNat (s : State) (nnn : Addr12) :
    (indexedTarget s nnn).toNat = (s.readV 0).toNat + nnn.toNat := by
  rw [indexedTarget, BitVec.toNat_add, immAddr_toNat, zext16, BitVec.toNat_setWidth_of_le (by decide)]
  omega

/-- Settles O14: the target is `nnn` zero-extended (`immAddr_toNat`). -/
theorem jumpSetsPc : Obligations.JumpSetsPc := fun nnn _ =>
  ⟨_, rfl, immAddr_toNat nnn, rfl⟩

/-- Settles O15: the sum does not wrap (`indexedTarget_toNat`) and has its bound (`indexedTarget_le`). -/
theorem indexedJumpIsNotMasked : Obligations.IndexedJumpIsNotMasked := fun nnn s =>
  ⟨_, rfl, indexedTarget_toNat s nnn, indexedTarget_le s nnn, rfl⟩

/-! ### CALL and RET (R140, R142, R149) -/

/-- CALL with room on the stack pushes PC and jumps (R142). -/
theorem exec_call_of_room {s : State} (h : s.stack.length < Config.stackDepth) (nnn : Addr12) :
    exec (.call nnn) s = .next ((s.setStack (s.pc :: s.stack)).setPc (immAddr nnn)) := by
  rcases push_cases s.pc s with ⟨-, e⟩ | ⟨hfull, -⟩
  · simp only [exec, execCall, e]
  · omega

/-- CALL on a full stack raises StackOverflow (R30, R142). -/
theorem exec_call_of_full {s : State} (h : Config.stackDepth ≤ s.stack.length) (nnn : Addr12) :
    exec (.call nnn) s = raise .stackOverflow s := by
  rcases push_cases s.pc s with ⟨hroom, -⟩ | ⟨-, e⟩
  · omega
  · simp only [exec, execCall, e]

/-- RET takes the head off the stack into PC (R140). -/
theorem exec_ret_of_cons {s : State} {w : Word} {rest : List Word} (h : s.stack = w :: rest)
    (ign : BitVec 8) : exec (.ret ign) s = .next ((s.setStack rest).setPc w) := by
  rcases pop_cases s with ⟨w', rest', h', e⟩ | ⟨h', -⟩ <;> cases h.symm.trans h'
  simp only [exec, execRet, e]

/-- RET on an empty stack raises StackUnderflow (R31, R140). -/
theorem exec_ret_of_nil {s : State} (h : s.stack = []) (ign : BitVec 8) :
    exec (.ret ign) s = raise .stackUnderflow s := by
  rcases pop_cases s with ⟨w', rest', h', -⟩ | ⟨-, e⟩
  · cases h.symm.trans h'
  · simp only [exec, execRet, e]

/-- Settles O16: CALL with room (`exec_call_of_room`) and on a full stack (`exec_call_of_full`). -/
theorem callPushesReturnAddress : Obligations.CallPushesReturnAddress := fun nnn _ =>
  ⟨fun h => ⟨_, exec_call_of_room h nnn, rfl, immAddr_toNat nnn, rfl⟩, fun h => exec_call_of_full h nnn⟩

/-- Settles O17: RET on a stack with a head (`exec_ret_of_cons`) and on an empty one (`exec_ret_of_nil`). -/
theorem returnPopsIntoPc : Obligations.ReturnPopsIntoPc := fun ign _ =>
  ⟨fun _ _ h => exec_ret_of_cons h ign, fun h => exec_ret_of_nil h ign⟩

/-- Settles O18: CALL leaves its PC at the head of the stack, where RET finds it. -/
theorem callThenReturnComesBack : Obligations.CallThenReturnComesBack := by
  intro nnn ign s t u hroom hcall hu
  cases (exec_call_of_room hroom nnn).symm.trans hcall
  have hstack : u.stack = s.pc :: s.stack := hu
  exact ⟨_, exec_ret_of_cons hstack ign, rfl, rfl⟩

/-! ### Skips (R143 to R147) -/

/-- A skip on equality adds 2 to PC, modulo 2^16, if the values are equal (R143, R145). -/
theorem skipIf_beq (a b : Byte) (s : State) :
    skipIf (a == b) s =
      { s with pc := if a.toNat = b.toNat then BitVec.ofNat 16 (s.pc.toNat + 2) else s.pc } := by
  rw [skipIf_eq, ofNat_toNat_add_two]
  simp only [beq_iff_eq, BitVec.toNat_inj, State.setPc]

/-- A skip on inequality adds 2 to PC, modulo 2^16, unless the values are equal (R144, R146). -/
theorem skipIf_bne (a b : Byte) (s : State) :
    skipIf (a != b) s =
      { s with pc := if a.toNat = b.toNat then s.pc else BitVec.ofNat 16 (s.pc.toNat + 2) } := by
  rw [skipIf_eq, ofNat_toNat_add_two]
  simp only [bne_iff_ne, ne_eq, ite_not, BitVec.toNat_inj, State.setPc]

/-- Settles O19: `skipIf_beq` and `skipIf_bne` at the register and the immediate. -/
theorem skipsOnImmediate : Obligations.SkipsOnImmediate := fun x kk s =>
  ⟨congrArg _ (skipIf_beq (s.readV x) kk s), congrArg _ (skipIf_bne (s.readV x) kk s)⟩

/-- Settles O20: `skipIf_beq` and `skipIf_bne` at the two registers; with x = y their values are equal. -/
theorem skipsOnTwoRegisters : Obligations.SkipsOnTwoRegisters := by
  intro x y s
  have hse (y : Nibble) := skipIf_beq (s.readV x) (s.readV y) s
  have hsne (y : Nibble) := skipIf_bne (s.readV x) (s.readV y) s
  exact ⟨congrArg _ (hse y), congrArg _ (hsne y), congrArg _ ((hse x).trans (by rw [if_pos rfl])),
    congrArg Host.Outcome.next ((hsne x).trans (by rw [if_pos rfl]))⟩

end Sys2Proof.Machine
end

section
/-! The statements of 42_alu.md: what the register loads, the ALU instructions and RND write, and that nothing
else changes (R160 to R174). -/

namespace Sys2Proof.Machine

/-! ### One register (R160 to R163, R165, R166, R174) -/

/-- Writing register x changes nothing but register x. -/
theorem onlyReg_setV (x : Nibble) (b : Byte) (s : State) : onlyReg s (s.setV x b) x :=
  ⟨fun _ hr => State.readV_setV_ne s b hr, rfl⟩

/-- Writing a register's own value back changes no register. -/
theorem State.readV_setV_self (x : Nibble) (s : State) (r : Nibble) :
    (s.setV x (s.readV x)).readV r = s.readV r := by
  rw [State.readV_setV]
  split
  case isTrue hr => rw [hr]
  case isFalse => rfl

/-- Settles O21: the value written is read back; LD Vx, Vx writes the register's own value
(`State.readV_setV_self`). -/
theorem registerLoads : Obligations.RegisterLoads := fun x _ _ s =>
  ⟨⟨_, rfl, State.readV_setV_same s x _, onlyReg_setV x _ s⟩,
    ⟨_, rfl, State.readV_setV_same s x _, onlyReg_setV x _ s⟩,
    ⟨_, rfl, State.readV_setV_self x s⟩⟩

/-- Settles O22: the byte sum is the sum modulo 256, and only Vx is written (`onlyReg_setV`). -/
theorem addImmediateWraps : Obligations.AddImmediateWraps := by
  intro x kk s
  refine ⟨_, rfl, ?_, onlyReg_setV x _ s⟩
  rw [State.readV_setV_same, BitVec.toNat_add]

/-- Settles O23: each bit of the byte written, by the library's law of the operation; only Vx is written
(`onlyReg_setV`). -/
theorem logicBitByBit : Obligations.LogicBitByBit := by
  intro x y s
  refine ⟨⟨_, rfl, onlyReg_setV x _ s, fun k => ?or⟩, ⟨_, rfl, onlyReg_setV x _ s, fun k => ?and⟩,
    ⟨_, rfl, onlyReg_setV x _ s, fun k => ?xor⟩⟩ <;> rw [State.readV_setV_same]
  case or => exact BitVec.getLsbD_or
  case and => exact BitVec.getLsbD_and
  case xor => exact BitVec.getLsbD_xor

/-! ### A result and a flag (R164, R167 to R171) -/

/-- Writing a result and its flag changes nothing but register x and VF. -/
theorem onlyRegAndFlag_writeResultFlag (x : Nibble) (r : Byte) (f : Bool) (s : State) :
    onlyRegAndFlag s (writeResultFlag x r f s) x :=
  ⟨fun _ hx hf => readV_writeResultFlag_other hx hf r f s, rfl⟩

/-- The flag of a condition is 1 if it holds, else 0 (R21, D11). -/
theorem flagByte_decide (p : Prop) [Decidable p] : flagByte (decide p) = if p then 1 else 0 := by
  simp only [flagByte, decide_eq_true_eq]

/-- The flag of a bit, as a number, is that bit. -/
theorem flagByte_toNat (b : Bool) : (flagByte b).toNat = b.toNat := by
  cases b <;> rfl

/-- Byte subtraction is the difference of the integers modulo 256 (R174). -/
theorem toNat_sub_emod (a b : Byte) : ((a - b).toNat : Int) = ((a.toNat : Int) - b.toNat) % 256 := by
  rw [BitVec.toNat_sub]
  omega

/-- Settles O24: the flag stands in VF and, unless x is 15, the sum in Vx; the carry is that of the old values. -/
theorem addSetsCarry : Obligations.AddSetsCarry := by
  intro x y s
  refine ⟨_, rfl, fun hx => ?sum, ?carry, onlyRegAndFlag_writeResultFlag x _ _ s⟩
  case sum => rw [readV_writeResultFlag_dest hx, BitVec.toNat_add]
  case carry => exact (readV_writeResultFlag_vf ..).trans (flagByte_decide _)

/-- What SUB and SUBN leave, with the minuend `a` and the subtrahend `b` (R168, R170). -/
theorem writeResultFlag_difference (x : Nibble) (a b : Byte) (s : State) :
    (x ≠ 15 → (((writeResultFlag x (a - b) (greaterFlag a b) s).readV x).toNat : Int) =
      (a.toNat - b.toNat : Int) % 256) ∧
    (writeResultFlag x (a - b) (greaterFlag a b) s).readV 15 = (if a.toNat > b.toNat then 1 else 0) ∧
    onlyRegAndFlag s (writeResultFlag x (a - b) (greaterFlag a b) s) x := by
  refine ⟨fun hx => ?difference, ?flag, onlyRegAndFlag_writeResultFlag x _ _ s⟩
  case difference => rw [readV_writeResultFlag_dest hx, toNat_sub_emod]
  case flag => exact (readV_writeResultFlag_vf ..).trans (flagByte_decide _)

/-- Settles O25: SUB and SUBN are `writeResultFlag_difference` with the operands in the one and the other order. -/
theorem subtractSetsStrictFlag : Obligations.SubtractSetsStrictFlag := fun x y s =>
  ⟨⟨_, rfl, writeResultFlag_difference x (s.readV x) (s.readV y) s⟩,
    ⟨_, rfl, writeResultFlag_difference x (s.readV y) (s.readV x) s⟩⟩

/-- The flag of SHR is the remainder of the byte by 2 (R169). -/
theorem lowBitFlag_toNat (a : Byte) : (lowBitFlag a).toNat = a.toNat % 2 := by
  rw [lowBitFlag, BitVec.getLsbD, Nat.toNat_testBit, Nat.pow_zero, Nat.div_one]

/-- The flag of SHL is the byte divided by 128 (R171). -/
theorem highBitFlag_toNat (a : Byte) : (highBitFlag a).toNat = a.toNat / 128 := by
  rw [highBitFlag, BitVec.getLsbD, Nat.toNat_testBit]
  omega

/-- Settles O26: a shift by one bit halves or doubles Vx, and the flag is the bit shifted out
(`lowBitFlag_toNat`, `highBitFlag_toNat`). -/
theorem shiftsSetShiftedOutBit : Obligations.ShiftsSetShiftedOutBit := by
  intro x y s
  have hflag (r : Byte) (f : Bool) : ((writeResultFlag x r f s).readV 15).toNat = f.toNat := by
    rw [readV_writeResultFlag_vf, flagByte_toNat]
  refine ⟨⟨_, rfl, fun hx => ?half, ?lowBit, onlyRegAndFlag_writeResultFlag x _ _ s⟩,
    ⟨_, rfl, fun hx => ?double, ?highBit, onlyRegAndFlag_writeResultFlag x _ _ s⟩⟩
  case half => rw [readV_writeResultFlag_dest hx, BitVec.toNat_ushiftRight, Nat.shiftRight_one]
  case lowBit => rw [hflag, lowBitFlag_toNat]
  case double => rw [readV_writeResultFlag_dest hx, BitVec.toNat_shiftLeft, Nat.shiftLeft_eq, Nat.pow_one]
  case highBit => rw [hflag, highBitFlag_toNat]

/-! ### The random byte (R172, R173) -/

/-- With no injected byte left, the answer is the free value of this draw. -/
theorem randomByte_free {s : State} (h : s.supply = []) : randomByte s = Config.randomByte s.draws := by
  simp only [randomByte, h]

/-- Settles O27: the byte drawn is the injected or the free one (`randomByte_injected`, `randomByte_free`), and
the mask clears the bits where kk has a 0. -/
theorem randomIsMasked : Obligations.RandomIsMasked := by
  intro x kk s
  have hread : ((afterRandom s).setV x (randomByte s &&& kk)).readV x = randomByte s &&& kk :=
    State.readV_setV_same _ x _
  refine ⟨_, rfl, fun b rest h => ⟨?_, congrArg List.tail h⟩, fun h => ⟨?_, congrArg List.tail h⟩, rfl,
    fun k hk => ?_, fun r hr => State.readV_setV_ne _ _ hr, rfl⟩
  · rw [hread, randomByte_injected h]
  · rw [hread, randomByte_free h]
  · rw [hread, BitVec.getLsbD_and, hk, Bool.and_false]

end Sys2Proof.Machine
end

section
/-! The statements of 43_index_memory.md: what I and the memory instructions write, in range, and that nothing
else changes (R190 to R196). -/

namespace Sys2Proof.Machine

/-! ### The index register (R190, R191, R192) -/

/-- A number that fits the width keeps its value as a word. -/
theorem toNat_ofNat_of_lt {w n : Nat} (h : n < 2 ^ w) : (BitVec.ofNat w n).toNat = n :=
  (BitVec.toNat_ofNat n w).trans (Nat.mod_eq_of_lt h)

/-- The glyph address of a digit does not wrap (R192). -/
theorem glyphAddr_toNat (v : Byte) : (glyphAddr v).toNat = 5 * v.toNat :=
  toNat_ofNat_of_lt (by have := v.isLt; omega)

/-- A byte keeps its value when zero-extended (R191). -/
theorem zext16_toNat (b : Byte) : (zext16 b).toNat = b.toNat :=
  BitVec.toNat_setWidth_of_le (by decide)

/-- Settles O28: both targets fit 16 bits (`immAddr_toNat`, `glyphAddr_toNat`); above 15 LD F does nothing. -/
theorem indexRegisterLoads : Obligations.IndexRegisterLoads := by
  refine fun x nnn s => ⟨⟨_, rfl, immAddr_toNat nnn, rfl⟩, ⟨_, rfl, ?_⟩⟩
  split
  case isTrue => exact ⟨glyphAddr_toNat _, rfl⟩
  case isFalse => exact ⟨rfl, rfl⟩

/-- Settles O29: the sum of two 16-bit words is the sum modulo 2^16, and Vx is zero-extended
(`zext16_toNat`). -/
theorem addToIndexWraps : Obligations.AddToIndexWraps := fun x s =>
  ⟨_, rfl, by rw [State.setI_i, BitVec.toNat_add, zext16_toNat], rfl⟩

/-! ### Decimal digits (R193) -/

/-- The three bytes are the hundreds, the tens and the ones (R193). -/
theorem bcdDigits_toNat (v : Byte) :
    (bcdDigits v)[0].toNat = v.toNat / 100 ∧ (bcdDigits v)[1].toNat = v.toNat / 10 % 10 ∧
      (bcdDigits v)[2].toNat = v.toNat % 10 := by
  have := v.isLt
  exact ⟨toNat_ofNat_of_lt (by omega), toNat_ofNat_of_lt (by omega), toNat_ofNat_of_lt (by omega)⟩

/-- `LD B, Vx` inside the address space is one run of three writes at I, and no fault (R193). -/
theorem exec_ldB_inRange {s : State} (hr : s.i.toNat + 2 < Config.memSize) (x : Nibble) :
    exec (.ldB x) s =
      .next (s.setMem (Memory.writeList s.mem (effAddr s 0) (bcdDigits (s.readV x)))) :=
  storeBytes_inRange hr s

/-- Settles O30: the run of writes is read back byte by byte (`Memory.read_writeList_inside`), as the three
digits. -/
theorem decimalDigitsStored : Obligations.DecimalDigitsStored := by
  intro x s hm hi
  have h := exec_ldB_inRange (show s.i.toNat + 2 < Config.memSize by simp only [memSize_eq]; omega) x
  have stored {k : Nat} (hk : k < (bcdDigits (s.readV x)).length) :=
    congrArg BitVec.toNat (Memory.read_writeList_inside hm.1 s.i.toNat hk)
  obtain ⟨hundreds, tens, ones⟩ := bcdDigits_toNat (s.readV x)
  exact ⟨_, h, (stored _).trans hundreds, (stored _).trans tens, (stored _).trans ones,
    fun p hp => exec_byteAt_outside h hp, rfl⟩

/-! ### Register groups (R195, R196) -/

/-- Settles O31: `exec_storeRegs_byteAt` inside the run of writes, `exec_byteAt_outside` outside. -/
theorem registersStored : Obligations.RegistersStored := by
  intro x s hm hi
  have hr : s.i.toNat + x.toNat < Config.memSize := Nat.lt_succ_of_le hi
  have h := exec_storeRegs_inRange hr
  exact ⟨_, h, fun k hk => exec_storeRegs_byteAt hm hr h hk, fun p hp => exec_byteAt_outside h hp, rfl⟩

/-- `LD Vx, [I]` inside the address space is one group write from the bytes at I, and no fault (R196). -/
theorem exec_loadRegs_inRange {x : Nibble} {s : State} (hr : s.i.toNat + x.toNat < Config.memSize) :
    exec (.loadRegs x) s =
      .next (s.setVs (regGroup x) (s.bytesFrom (effAddr s 0) (regGroup x).length)) :=
  loadInto_inRange (by rw [regGroup_length]; exact hr) s

/-- After `LD Vx, [I]` register k is the byte at I + k, for every k up to x (R196). -/
theorem exec_loadRegs_readV {x k : Nibble} {s t : State} (hr : s.i.toNat + x.toNat < Config.memSize)
    (h : exec (.loadRegs x) s = .next t) (hk : k.toNat ≤ x.toNat) :
    t.readV k = s.byteAt (s.i.toNat + k.toNat) := by
  cases h.symm.trans (exec_loadRegs_inRange hr)
  have hlen : k.toNat < (regGroup x).length := by simpa using Nat.lt_succ_of_le hk
  have hget : (regGroup x)[k.toNat] = k := by
    rw [regGroup_get, BitVec.ofNat_toNat, BitVec.setWidth_eq]
  have hloaded := State.readV_setVs_inside (regGroup_nodup x) s hlen
    (bs := s.bytesFrom (effAddr s 0) (regGroup x).length) (by simpa [State.bytesFrom] using hlen)
  simpa [hget, State.bytesFrom, effAddr] using hloaded

/-- Settles O32: `exec_loadRegs_readV` in the group; the registers above x are outside it. -/
theorem registersLoaded : Obligations.RegistersLoaded := by
  intro x s hi
  have hr : s.i.toNat + x.toNat < Config.memSize := Nat.lt_succ_of_le hi
  have h := exec_loadRegs_inRange hr
  refine ⟨_, h, fun k hk => exec_loadRegs_readV hr h hk, fun k hk => ?_, State.setVs_eq s _ _⟩
  exact State.readV_setVs_outside (fun hmem => Nat.not_le_of_lt hk (mem_regGroup.mp hmem)) s _

/-- Settles O35: the load reads from I + k (`exec_loadRegs_readV`) what the dump stored there
(`exec_storeRegs_byteAt`), since neither instruction writes I. -/
theorem dumpLoadRoundTrip : Obligations.DumpLoadRoundTrip := by
  intro x s t u hm hi hdump hmem hui
  have hr : s.i.toNat + x.toNat < Config.memSize := Nat.lt_succ_of_le hi
  have hi' : u.i = s.i := hui.trans (exec_same hdump (e := .i) (by simp [writesOf]))
  have hload := exec_loadRegs_inRange (x := x) (s := u) (hi' ▸ hr)
  refine ⟨_, hload, (exec_same hload (e := .i) (by simp [writesOf])).trans hi', fun k hk => ?_⟩
  calc _ = u.byteAt (u.i.toNat + k.toNat) := exec_loadRegs_readV (hi' ▸ hr) hload hk
    _ = t.byteAt (s.i.toNat + k.toNat) := by rw [hi', State.byteAt, hmem, State.byteAt]
    _ = s.readV k := exec_storeRegs_byteAt hm hr hdump hk

end Sys2Proof.Machine
end

section
/-! The statements of 44_display.md: what CLS, `set_pixel`, the row blitter and DRW leave on the display and
in VF (R211 to R217). -/

namespace Sys2Proof.Machine

/-! ### CLS and the pixel primitive (R211, R215) -/

/-- Settles O37: CLS leaves the blank display, whose every pixel is off (`pixelAt_blank`). -/
theorem clearScreen : Obligations.ClearScreen := fun _ _ =>
  ⟨_, rfl, pixelAt_blank, rfl, rfl⟩

/-- `set_pixel` off the grid is a no-op (R211). -/
theorem setPixel_offGrid {px py : Nat} (h : ¬(px < 64 ∧ py < 32)) (on : Bool) (d : Display) :
    setPixel px py on d = (d, false) :=
  dif_neg h

/-- Settles O41: `setPixel_offGrid` off the grid, `pixelAt_setPixel` and `setPixel_erased` on it. -/
theorem setPixelPrimitive : Obligations.SetPixelPrimitive := by
  refine fun px py on d => ⟨fun hoff => setPixel_offGrid (by omega) on d, fun hon => ⟨?_, ?_, ?_⟩⟩
  · have hgrid : px < 64 ∧ py < 32 := by omega
    simp [pixelAt_setPixel, hgrid]
  · intro x y hother
    have hmiss : ¬(x = px ∧ y = py ∧ x < 64 ∧ y < 32) := fun ⟨hx, hy, _⟩ => hother ⟨hx, hy⟩
    simp [pixelAt_setPixel, hmiss]
  · rw [setPixel_erased, Bool.and_eq_true]

/-! ### DRW (R216) -/

/-- A flag is 1 exactly when its condition holds (R21, D11). -/
theorem flagByte_eq_one_iff (b : Bool) : flagByte b = 1 ↔ b = true := by
  cases b <;> decide

/-- DRW whose sprite lies inside the address space: the bits of the sprite are XORed onto the display, VF
takes the collision and DrawRequired is set (R216, in the terms of `spriteBitAt`). -/
theorem exec_drw_inRange {x y n : Nibble} {s : State} (hin : n.toNat = 0 ∨ s.i.toNat + n.toNat ≤ 4096) :
    ∃ d col,
      exec (.drw x y n) s = .next (((s.setPix d).setV regVF (flagByte col)).setDrawReq true) ∧
      (∀ px py, pixelAt d px py = (pixelAt s.pix px py ^^
        spriteBitAt s ((s.readV x).toNat % 64) ((s.readV y).toNat % 32) n.toNat px py)) ∧
      (col = true ↔ ∃ px py, pixelAt s.pix px py = true ∧
        spriteBitAt s ((s.readV x).toNat % 64) ((s.readV y).toNat % 32) n.toNat px py = true) := by
  obtain ⟨d, col, hexec, hpix, hcol⟩ :=
    drawRows_inRange (startColumn (s.readV x)) n.toNat (startRow (s.readV y)) 0 false s hin
  simp only [Nat.zero_add, Bool.false_eq_true, false_or] at hpix hcol
  exact ⟨d, col, hexec, hpix, hcol⟩

/-- Settles O38: `exec_drw_inRange` says the pixels and the collision; VF is the flag written last, every other
register is beside it. -/
theorem drawTogglesSpritePixels : Obligations.DrawTogglesSpritePixels := by
  intro x y n s hin
  obtain ⟨d, col, hexec, hpix, hcol⟩ := exec_drw_inRange (x := x) (y := y) hin
  have hvf : (((s.setPix d).setV regVF (flagByte col)).setDrawReq true).readV 15 = flagByte col :=
    State.readV_setV_same _ _ _
  refine ⟨_, hexec, hpix, ?_, ?_, fun r hr => State.readV_setV_ne _ _ hr, rfl, rfl⟩
  · rw [hvf]
    exact flagByte_zero_or_one col
  · rw [hvf, flagByte_eq_one_iff]
    exact hcol

/-! ### Drawing twice (R217) -/

/-- Two displays with the same pixels are the same display. -/
theorem display_ext {d e : Display} (h : ∀ px py, pixelAt d px py = pixelAt e px py) : d = e := by
  refine Vector.ext fun py hy => Vector.ext fun px hx => ?_
  simpa [pixelAt, hx, hy] using h px py

/-- The row blitter is its own inverse: each pixel is XORed twice with the same bit (R217). -/
theorem drawSprite_drawSprite (x0 y0 : Nat) (b : Byte) (d : Display) :
    (drawSprite x0 y0 b (drawSprite x0 y0 b d).1).1 = d :=
  display_ext fun px py => by
    rw [pixelAt_drawSprite, pixelAt_drawSprite, Bool.xor_assoc, Bool.xor_self, Bool.xor_false]

/-- The bits of a sprite depend on memory and I only (R216). -/
theorem spriteBitAt_congr {s t : State} (hmem : ∀ a, t.byteAt a = s.byteAt a) (hi : t.i = s.i)
    (x0 y0 rows px py : Nat) : spriteBitAt t x0 y0 rows px py = spriteBitAt s x0 y0 rows px py := by
  simp only [spriteBitAt, effAddr, hmem, hi]

/-- Settles O40: `drawSprite_drawSprite` for the row blitter; for DRW the first draw leaves memory and I, so that
the second XORs the same bits (`exec_drw_inRange`, `spriteBitAt_congr`). -/
theorem drawIsSelfInverse : Obligations.DrawIsSelfInverse := by
  refine ⟨drawSprite_drawSprite, fun x y n s t hin h hx hy => ?_⟩
  have hmem : ∀ a, t.byteAt a = s.byteAt a := exec_same h (e := .mem) (by simp [writesOf])
  have hi : t.i = s.i := exec_same h (e := .i) (by simp [writesOf])
  obtain ⟨d, col, hfirst, hpix, -⟩ := exec_drw_inRange (x := x) (y := y) hin
  obtain ⟨d', col', hsecond, hpix', -⟩ := exec_drw_inRange (x := x) (y := y) (s := t) (hi ▸ hin)
  have ht : t.pix = d := by
    cases h.symm.trans hfirst
    rfl
  refine ⟨_, hsecond, display_ext fun px py => ?_⟩
  calc pixelAt d' px py
      = (pixelAt d px py ^^
          spriteBitAt s ((s.readV x).toNat % 64) ((s.readV y).toNat % 32) n.toNat px py) := by
        rw [hpix', ht, hx, hy, spriteBitAt_congr hmem hi]
    _ = pixelAt s.pix px py := by
        rw [hpix, Bool.xor_assoc, Bool.xor_self, Bool.xor_false]

end Sys2Proof.Machine
end

section
/-! The statements of 45_keys_timers.md: what the key skips, the delay timer transfers, LD Vx, K and LD ST, Vx
change, and that nothing else changes (R230 to R236). -/

namespace Sys2Proof.Machine

/-! ### Key skips (R230, R231, R236) -/

/-- A skip on a key that is down adds 2 to PC, modulo 2^16 (R147, R230). -/
theorem skipIf_readKey (v : Byte) (s : State) :
    skipIf (s.readKey (keyOf v)) s =
      { s with pc := if s.readKey (BitVec.ofNat 4 v.toNat) then BitVec.ofNat 16 (s.pc.toNat + 2)
                     else s.pc } := by
  rw [skipIf_eq, ofNat_toNat_add_two, BitVec.ofNat_toNat]
  rfl

/-- A skip on a key that is up adds 2 to PC, modulo 2^16 (R147, R231). -/
theorem skipIf_not_readKey (v : Byte) (s : State) :
    skipIf (!s.readKey (keyOf v)) s =
      { s with pc := if s.readKey (BitVec.ofNat 4 v.toNat) then s.pc
                     else BitVec.ofNat 16 (s.pc.toNat + 2) } := by
  rw [skipIf_eq, ofNat_toNat_add_two, BitVec.ofNat_toNat]
  simp only [Bool.not_eq_true', ← Bool.not_eq_true, ite_not]
  rfl

/-- SKP and SKNP on a key index that exists are skips on that bit of the latch (R230, R231). -/
theorem exec_keySkips_of_le {x : Nibble} {s : State} (h : (s.readV x).toNat ≤ 15) :
    exec (.skp x) s = .next (skipIf (s.readKey (keyOf (s.readV x))) s) ∧
      exec (.sknp x) s = .next (skipIf (!s.readKey (keyOf (s.readV x))) s) :=
  ⟨if_neg h.not_gt, if_neg h.not_gt⟩

/-- SKP and SKNP on a key index above 15 raise before the latch is read (R236, D13). -/
theorem exec_keySkips_of_lt {x : Nibble} {s : State} (h : 15 < (s.readV x).toNat) :
    exec (.skp x) s = raise (.keyIndexOutOfRange (s.readV x)) s ∧
      exec (.sknp x) s = raise (.keyIndexOutOfRange (s.readV x)) s :=
  ⟨if_pos h, if_pos h⟩

/-- Settles O42: with an existing key the two skips of `exec_keySkips_of_le`, whose PC is that of `skipIf_readKey`
and `skipIf_not_readKey`; above 15 the fault of `exec_keySkips_of_lt`. -/
theorem keySkips : Obligations.KeySkips := by
  refine fun x s => ⟨fun h => ?_, exec_keySkips_of_lt⟩
  obtain ⟨hskp, hsknp⟩ := exec_keySkips_of_le h
  exact ⟨hskp.trans (congrArg _ (skipIf_readKey _ s)), hsknp.trans (congrArg _ (skipIf_not_readKey _ s))⟩

/-! ### The delay timer, the wait and the sound timer (R232 to R235) -/

/-- Settles O43: the one is a write of DT to Vx (`onlyReg_setV`), the other a write of Vx to DT. -/
theorem delayTimerTransfers : Obligations.DelayTimerTransfers := fun x s =>
  ⟨⟨_, rfl, State.readV_setV_same s x _, onlyReg_setV x _ s⟩, ⟨_, rfl, State.setDt_dt s _, rfl⟩⟩

/-- `LD ST, Vx` writes ST and starts the sound for a positive value only (R235, D17). -/
theorem exec_ldStVx (x : Nibble) (s : State) :
    exec (.ldStVx x) s = .next { s with
      st := s.readV x
      outputs := s.outputs ++ if 0 < (s.readV x).toNat then [.startSound] else [] } := by
  simp only [exec, execLdStVx]
  split
  case isTrue => rfl
  case isFalse => rw [List.append_nil]; rfl

/-- Settles O44: LD Vx, K is one write of the waiting flag; LD ST, Vx leaves the state of `exec_ldStVx`. -/
theorem waitAndSoundWrites : Obligations.WaitAndSoundWrites := fun x s =>
  ⟨⟨_, rfl, State.setWaiting_waiting s true, rfl⟩, ⟨_, exec_ldStVx x s, rfl, rfl, rfl⟩⟩

end Sys2Proof.Machine
end

section
/-! The statements of 60_exceptions.md, the faults: which instruction raises which fault (R250, R259, R274), and
what an access that runs past the address space has done before it raised (R258). -/

namespace Sys2Proof.Machine

/-! ### The fault an instruction raises (R250) -/

/-- An instruction without the fault latch in its row of R47 has no condition in R250's table. -/
theorem raisesAt_eq_none {i : Instr} (hf : Elem.fault ∉ writesOf i) (s : State) : raisesAt s i = none := by
  cases i
  case ret | call | drw | skp | sknp | ldB | storeRegs | loadRegs => simp [writesOf] at hf
  all_goals rfl

/-- The latch after SKP or SKNP: the same condition and the same fault for both (R236, D13). -/
theorem keySkip_fault {x : Nibble} {s t : State}
    (h : exec (.skp x) s = .next t ∨ exec (.sknp x) s = .next t) :
    t.fault = (raisesAt s (.skp x)).or s.fault := by
  by_cases hk : 15 < (s.readV x).toNat
  · obtain ⟨hskp, hsknp⟩ := exec_keySkips_of_lt hk
    rw [hskp, hsknp, or_self] at h
    cases h
    rw [raisesAt, if_pos hk]; rfl
  · obtain ⟨hskp, hsknp⟩ := exec_keySkips_of_le (not_lt.mp hk)
    rw [hskp, hsknp, skipIf_eq, skipIf_eq] at h
    rw [raisesAt, if_neg hk]
    rcases h with h | h <;> (cases h; rfl)

/-- The latch after an instruction: the fault R250 tabulates for it, else the latch as it was. -/
theorem exec_fault {i : Instr} {s t : State} (h : exec i s = .next t) :
    t.fault = (raisesAt s i).or s.fault := by
  by_cases hf : Elem.fault ∈ writesOf i
  · cases i
    case ret ign =>
      cases hs : s.stack with
      | nil => cases h.symm.trans (exec_ret_of_nil hs ign); simp [raisesAt, hs]
      | cons w rest => cases h.symm.trans (exec_ret_of_cons hs ign); simp [raisesAt, hs]
    case call nnn =>
      by_cases hroom : s.stack.length < Config.stackDepth
      · cases h.symm.trans (exec_call_of_room hroom nnn)
        rw [raisesAt, if_neg hroom.not_ge]; rfl
      · cases h.symm.trans (exec_call_of_full (not_lt.mp hroom) nnn)
        rw [raisesAt, if_pos (not_lt.mp hroom)]; rfl
    case skp x => exact keySkip_fault (.inl h)
    case sknp x => exact keySkip_fault (.inr h)
    case drw x y n =>
      obtain ⟨d, b, q, e⟩ := drawRows_next (startColumn (s.readV x)) n.toNat (startRow (s.readV y))
        (effAddr s 0) false s
      cases h.symm.trans e; rfl
    case ldB x => cases h.symm.trans (storeBytes_next _ _ _); rfl
    case storeRegs x =>
      cases h.symm.trans (storeBytes_next _ _ _)
      rw [raisesAt, List.length_map, regGroup_length]
    case loadRegs x =>
      obtain ⟨v, e, -⟩ := loadInto_next (effAddr s 0) (regGroup x) s
      cases h.symm.trans e
      rw [raisesAt, regGroup_length]
    all_goals simp [writesOf] at hf
  · rw [raisesAt_eq_none hf, Option.none_or]
    exact exec_same h hf

/-- Settles O54: every instruction answers a next state (`exec_next`), whose latch `exec_fault` gives. -/
theorem faultsExactlyAsTabulated : Obligations.FaultsExactlyAsTabulated := by
  intro i s
  obtain ⟨t, h⟩ := exec_next i s
  exact ⟨t, h, exec_fault h⟩

/-! ### Stores past the last address (R75, R258) -/

/-- A store, in range or not, leaves its bytes in memory as far as the address space goes. -/
theorem memoryGets_storeBytes {a : Nat} {bs : List Byte} {s t : State} (hm : Memory.wf s.mem)
    (h : storeBytes a bs s = .next t) : memoryGets s t a bs := by
  cases h.symm.trans (storeBytes_next a bs s)
  constructor
  · intro k hk ha
    have hlen : k < (bs.take (Config.memSize - a)).length := by rw [List.length_take]; omega
    rw [State.byteAt, Memory.read_writeList_inside hm.1 a hlen, List.getElem_take,
      List.getD_eq_getElem bs 0 hk]
  · intro p hp
    exact Memory.read_writeList_outside (by rw [List.length_take]; omega) s.mem

/-- A run of accesses past the last address fails at the first one out of range (R259). -/
theorem firstOutOfRange_of_lt {a n : Nat} (hn : 0 < n) (h : Config.memSize < a + n) :
    firstOutOfRange a n = some (.addressOutOfRange (max a Config.memSize)) :=
  if_pos ⟨hn, h⟩

/-- A store past the last address has stored the bytes that exist, has latched the first address out of range, and
has changed nothing else (R75, R258). -/
theorem storeBytes_pastEnd {a : Nat} {bs : List Byte} {s : State} (hm : Memory.wf s.mem) (hne : 0 < bs.length)
    (h : Config.memSize < a + bs.length) :
    ∃ t, storeBytes a bs s = .next t ∧ memoryGets s t a bs ∧
      t = { s with mem := t.mem, fault := some (.addressOutOfRange (max a Config.memSize)) } := by
  have e := storeBytes_next a bs s
  rw [firstOutOfRange_of_lt hne h] at e
  exact ⟨_, e, memoryGets_storeBytes hm e, rfl⟩

/-- Settles O33: both instructions are one run of stores at I (`storeBytes_pastEnd`). -/
theorem storeFaultsArePrecise : Obligations.StoreFaultsArePrecise := by
  refine fun x s hm => ⟨fun h => ?_, fun h => ?_⟩
  · exact storeBytes_pastEnd hm (by simp) (by simp [effAddr]; omega)
  · exact storeBytes_pastEnd hm (by simp) (by simp [effAddr]; omega)

/-! ### Loads past the last address (R75, R258) -/

/-- With the first `m` registers of a group loaded from `a`, register k of them holds the byte at `a + k` (R196). -/
theorem readV_setVs_take {x k : Nibble} (hk : k.toNat ≤ x.toNat) {m : Nat} (hm : k.toNat < m) (a : Nat) (s : State) :
    (s.setVs ((regGroup x).take m) (s.bytesFrom a m)).readV k = s.byteAt (a + k.toNat) := by
  have hlen : k.toNat < ((regGroup x).take m).length := by simp; omega
  have hget : ((regGroup x).take m)[k.toNat] = k := by
    rw [List.getElem_take, regGroup_get, BitVec.ofNat_toNat, BitVec.setWidth_eq]
  have hloaded := State.readV_setVs_inside ((regGroup_nodup x).sublist (List.take_sublist m _)) s hlen
    (bs := s.bytesFrom a m) (by simpa [State.bytesFrom] using hm)
  simpa [hget, State.bytesFrom] using hloaded

/-- A register above `x`, or one that the first `m` of the group do not reach, is not among them (R196). -/
theorem notMem_take_regGroup {x k : Nibble} {m : Nat} (h : x.toNat < k.toNat ∨ m ≤ k.toNat) :
    k ∉ (regGroup x).take m := by
  intro hmem
  obtain ⟨j, hj, rfl⟩ := List.mem_take_iff_getElem.mp hmem
  have hx := x.isLt
  rw [regGroup_length] at hj
  rw [regGroup_get, toNat_ofNat_of_lt (by omega)] at h
  omega

/-- Settles O34: the load writes the registers of the group whose bytes exist (`loadInto_faults`), which
`readV_setVs_take` reads back; every other register stands outside them (`notMem_take_regGroup`). -/
theorem loadFaultsArePrecise : Obligations.LoadFaultsArePrecise := by
  intro x s h
  have e := loadInto_faults (a := effAddr s 0) (rs := regGroup x) (by simp [← List.length_pos_iff])
    (by simp [effAddr]; omega) s
  rw [State.setVs_eq] at e
  refine ⟨_, e, fun k hk hin => ?_, fun k hout => ?_, rfl⟩
  · exact readV_setVs_take hk (by simp [effAddr]; omega) _ s
  · exact State.readV_setVs_outside (notMem_take_regGroup (by simp [effAddr]; omega)) s _

/-! ### Draws past the last address (R216, R258) -/

/-- A draw past the last address leaves the picture of the draw of the rows that exist, and latches the first address
out of range; VF and DrawRequired it does not write (R216, R258). -/
theorem drawRows_pastEnd (x0 : Nat) {rows : Nat} (y0 : Nat) {a : Nat} (c : Bool) (s : State) (hne : 0 < rows)
    (h : Config.memSize < a + rows) :
    ∃ u, drawRows x0 (Config.memSize - a) y0 a c s = .next u ∧
      drawRows x0 rows y0 a c s =
        .next ((s.setPix u.pix).setFault (some (.addressOutOfRange (max a Config.memSize)))) := by
  induction rows generalizing y0 a c s with
  | zero => omega
  | succ n ih =>
    rcases drawRows_succ x0 n y0 a c s with ⟨ha, e⟩ | ⟨ha, e⟩
    · obtain ⟨m, hm⟩ : ∃ m, Config.memSize - a = m + 1 := ⟨Config.memSize - a - 1, by omega⟩
      rcases drawRows_succ x0 m y0 a c s with ⟨-, e'⟩ | ⟨ha', -⟩
      · obtain ⟨u, hu, hfault⟩ := ih (y0 + 1) (a := a + 1) (c || (drawSprite x0 y0 (s.byteAt a) s.pix).2)
          (s.setPix (drawSprite x0 y0 (s.byteAt a) s.pix).1) (by omega) (by omega)
        rw [show Config.memSize - (a + 1) = m by omega] at hu
        rw [show max (a + 1) Config.memSize = max a Config.memSize by omega] at hfault
        exact ⟨u, hm ▸ e'.trans hu, e.trans hfault⟩
      · omega
    · rw [Nat.sub_eq_zero_of_le ha, max_eq_left ha]
      exact ⟨_, rfl, e⟩

/-- Settles O39: the pixels are those of the draw of the rows that exist (`drawRows_pastEnd`), which lies inside the
address space (`drawRows_inRange`). -/
theorem drawFaultsArePrecise : Obligations.DrawFaultsArePrecise := by
  intro x y n s hn h
  obtain ⟨u, hrows, hexec⟩ := drawRows_pastEnd (startColumn (s.readV x)) (startRow (s.readV y)) (a := effAddr s 0)
    false s (Nat.pos_of_ne_zero hn) h
  obtain ⟨d, col, e, hpix, -⟩ := drawRows_inRange (startColumn (s.readV x)) (Config.memSize - effAddr s 0)
    (startRow (s.readV y)) 0 false s (by simp; omega)
  cases hrows.symm.trans e
  simp only [Nat.zero_add] at hpix
  exact ⟨_, hexec, hpix, rfl⟩

end Sys2Proof.Machine
end

section
/-! The statements of 60_exceptions.md, the events: the halted machine (R257, R267), the timer step (R262), the
key events (R264, R265) and the notifications (R268). -/

namespace Sys2Proof.Machine

/-! ### The halted machine (R257, R267) -/

/-- What a halted machine does with an event other than reset: nothing (R257). -/
theorem runHalted_of_ne_reset {e : Event} (he : e ≠ .reset) (s : State) : runHalted e s = .next s := by
  cases e
  case reset => exact absurd rfl he
  all_goals rfl

/-- With a fault latched, an event other than reset leaves the state (R257). -/
theorem runEvent_of_halted {s : State} (hf : s.fault ≠ none) {e : Event} (he : e ≠ .reset) :
    runEvent e s = .next s := by
  obtain ⟨c, hc⟩ := Option.ne_none_iff_exists'.mp hf
  exact (runEvent_halted hc e).trans (runHalted_of_ne_reset he s)

/-- Settles O13: the state is the one before the event (`runEvent_of_halted`), settled to its fault again; a reset
event comes through in any state (`step_of_reset`). -/
theorem haltedUntilReset : Obligations.HaltedUntilReset := by
  refine fun s c hf => ⟨fun hn => ?_, fun hn => ⟨_, step_of_reset hn, rfl⟩⟩
  have hf' : (s.setSchedule s.schedule.tail).fault = some c := hf
  rw [step_eq_settle_runEvent, runEvent_of_halted (by simp [hf]) hn]
  exact settle_next_halted hf'

/-! ### The key events (R264, R265) -/

/-- A key event writes the latch bit of its key, ends any wait, and changes nothing else (R264, R265). -/
theorem keyEventLive_spec (k : Nibble) (down : Bool) (s : State) :
    (keyEventLive k down s).readKey k = down ∧ (keyEventLive k down s).waiting = false ∧
      (∀ j, j ≠ k → (keyEventLive k down s).readKey j = s.readKey j) ∧
      keyEventLive k down s = { s with
        key := (keyEventLive k down s).key, waiting := (keyEventLive k down s).waiting } :=
  ⟨State.readKey_setKey_same s k down, rfl, fun _ hj => keyEventLive_readKey_ne hj down s, rfl⟩

/-- Settles O46: `keyEventLive_spec` for a press and a release; a halted machine takes neither. -/
theorem keyEvents : Obligations.KeyEvents := fun s k =>
  ⟨fun hf => ⟨⟨_, runEvent_live hf _, keyEventLive_spec k true s⟩,
      ⟨_, runEvent_live hf _, keyEventLive_spec k false s⟩⟩,
    fun hf => ⟨runEvent_of_halted hf nofun, runEvent_of_halted hf nofun⟩⟩

/-! ### The timer step (R262, R268) -/

/-- A positive byte less 1 is the byte one below (R262). -/
theorem toNat_sub_one {b : Byte} (h : 0 < b.toNat) : (b - 1).toNat = b.toNat - 1 :=
  BitVec.toNat_sub_of_le (BitVec.le_def.mpr h)

/-- The delay timer goes down by 1 but not below 0, and nothing else changes (R262). -/
theorem stepDelay_spec (s : State) :
    (stepDelay s).dt.toNat = s.dt.toNat - 1 ∧ stepDelay s = s.setDt (stepDelay s).dt := by
  unfold stepDelay
  split
  case isTrue h => exact ⟨toNat_sub_one h, rfl⟩
  case isFalse h => exact ⟨by omega, rfl⟩

/-- The sound timer goes down by 1 but not below 0, `stop_sound` is emitted exactly when it goes from 1 to 0, and
nothing else changes (R262, R268, D17). -/
theorem stepSound_spec (s : State) :
    (stepSound s).st.toNat = s.st.toNat - 1 ∧
      (stepSound s).outputs = s.outputs ++ (if s.st.toNat = 1 then [.stopSound] else []) ∧
      stepSound s = { s with st := (stepSound s).st, outputs := (stepSound s).outputs } := by
  unfold stepSound
  split
  case isTrue h =>
    have hst := toNat_sub_one h
    have hzero : s.st - 1 = 0 ↔ s.st.toNat = 1 := by rw [← BitVec.toNat_inj, hst]; simp; omega
    simp only [hzero]
    split
    case isTrue => exact ⟨hst, rfl, rfl⟩
    case isFalse => exact ⟨hst, (List.append_nil _).symm, rfl⟩
  case isFalse h =>
    rw [if_neg (by omega)]
    exact ⟨by omega, (List.append_nil _).symm, rfl⟩

/-- The timer step is `stepDelay` and `stepSound`, which share no element (R262). -/
theorem advanceTimersLive_spec (s : State) :
    (advanceTimersLive s).dt.toNat = s.dt.toNat - 1 ∧ (advanceTimersLive s).st.toNat = s.st.toNat - 1 ∧
      (advanceTimersLive s).outputs = s.outputs ++ (if s.st.toNat = 1 then [.stopSound] else []) ∧
      advanceTimersLive s = { s with
        dt := (advanceTimersLive s).dt, st := (advanceTimersLive s).st,
        outputs := (advanceTimersLive s).outputs } := by
  obtain ⟨hdt, hdelay⟩ := stepDelay_spec s
  obtain ⟨hst, hout, hsound⟩ := stepSound_spec (s.setDt (stepDelay s).dt)
  rw [advanceTimersLive, hdelay]
  refine ⟨?_, hst, hout, ?_⟩
  · rw [hsound]; exact hdt
  · rw [hsound]; rfl

/-- Settles O45: `advanceTimersLive_spec`; a halted machine does not count. -/
theorem timerStep : Obligations.TimerStep := fun s =>
  ⟨fun hf => ⟨_, runEvent_live hf _, advanceTimersLive_spec s⟩, fun hf => runEvent_of_halted hf nofun⟩

/-! ### The notifications (R268) -/

/-- The notifications after an instruction (R268): LD ST, Vx with a positive value adds `start_sound`, everything
else leaves the list. -/
theorem exec_outputs_cases {i : Instr} {s t : State} (h : exec i s = .next t) :
    t.outputs = s.outputs ∨
      ∃ x, i = .ldStVx x ∧ 0 < (s.readV x).toNat ∧ t.outputs = s.outputs ++ [.startSound] := by
  by_cases ho : Elem.outputs ∈ writesOf i
  · cases i
    case ldStVx x =>
      cases h.symm.trans (exec_ldStVx x s)
      split
      case isTrue hpos => exact .inr ⟨x, rfl, hpos, rfl⟩
      case isFalse => exact .inl (List.append_nil _)
    all_goals simp [writesOf] at ho
  · exact .inl (exec_same h ho)

/-- The notifications after the timer step (R268): ST from 1 to 0 adds `stop_sound`, else the list is as before. -/
theorem advanceTimersLive_outputs_cases (s : State) :
    (s.st.toNat = 1 ∧ (advanceTimersLive s).outputs = s.outputs ++ [.stopSound]) ∨
      (advanceTimersLive s).outputs = s.outputs := by
  obtain ⟨-, -, hout, -⟩ := advanceTimersLive_spec s
  split at hout
  case isTrue h => exact .inl ⟨h, hout⟩
  case isFalse => exact .inr (hout.trans (List.append_nil _))

/-- Settles O56, over the ways a step can go (`step_next`): an instruction (`exec_outputs_cases`), the timer step
(`advanceTimersLive_outputs_cases`), or an event that leaves the list. -/
theorem onlySoundEventsEmit : Obligations.OnlySoundEventsEmit := by
  intro s t h
  rcases step_next h with ⟨-, ⟨-, rfl⟩ | ⟨hf, ⟨-, i, hi, he⟩ | ⟨-, -, -, rfl⟩ | ⟨hn, rfl⟩ | ⟨_, -, rfl⟩ |
    ⟨_, -, rfl⟩ | ⟨_, -, -, rfl⟩⟩⟩
  case inr.inl =>
    rcases exec_outputs_cases he with e | ⟨x, rfl, hpos, e⟩
    · exact .inr (.inr e)
    · exact .inl ⟨x, hi, hpos, e⟩
  case inr.inr.inr.inl =>
    rcases advanceTimersLive_outputs_cases (s.setSchedule s.schedule.tail) with ⟨hst, e⟩ | e
    · exact .inr (.inl ⟨hn, hf, hst, e⟩)
    · exact .inr (.inr e)
  all_goals exact .inr (.inr rfl)

end Sys2Proof.Machine
end

section
/-! The statement of 70_reset_and_hazards.md on loading: what a load event writes, and when it is refused (R295,
D26). -/

namespace Sys2Proof.Machine

/-- A load event of a machine that is not halted, taken off the schedule and settled (R295). -/
theorem step_of_load {s : State} {bytes : List Byte} (h : s.nextEvent = .load bytes) (hf : s.fault = none) :
    step s = settle (loadLive bytes (s.setSchedule s.schedule.tail)) := by
  rw [step_eq_settle_runEvent, h, runEvent_live (by simpa using hf)]
  rfl

/-- An image that fits is one run of writes from 0x200, and no fault (R295). -/
theorem step_of_load_fits {s : State} {bytes : List Byte} (h : s.nextEvent = .load bytes) (hf : s.fault = none)
    (hlen : bytes.length ≤ Config.maxImage) :
    step s = .next ((s.setSchedule s.schedule.tail).setMem
      (Memory.writeList s.mem Config.progBase bytes)) := by
  rw [step_of_load h hf]
  exact (congrArg settle (if_pos hlen)).trans (settle_next_live hf)

/-- A longer image is refused by name, with its length (D26, log 19). -/
theorem step_of_load_overlong {s : State} {bytes : List Byte} (h : s.nextEvent = .load bytes)
    (hf : s.fault = none) (hlen : Config.maxImage < bytes.length) :
    step s = .refused (.overlongImage bytes.length) := by
  rw [step_of_load h hf]
  exact congrArg settle (if_neg (Nat.not_le_of_lt hlen))

/-- Settles O47: the run of writes (`step_of_load_fits`) is read back byte by byte inside the image and leaves the
bytes outside it; an image that does not fit is refused (`step_of_load_overlong`). -/
theorem loadCopiesImage : Obligations.LoadCopiesImage := by
  refine fun s bytes h hf => ⟨fun hlen hm => ?_, step_of_load_overlong h hf⟩
  refine ⟨_, step_of_load_fits h hf hlen, fun k hk => ?_, fun p hp => ?_, rfl⟩
  · rw [List.getD_eq_getElem _ _ hk]
    exact Memory.read_writeList_inside hm.1 _ hk
  · exact Memory.read_writeList_outside hp s.mem

end Sys2Proof.Machine
end
